-- ==== Sys2Proof/Word.lean ====
section
/-!
DEFINITION. The word types of some_vm CORE (spec/00_scope.md R7). An `i64` and an `f64` are both held as
their 64-bit pattern; where the spec takes a value as a signed number, `BitVec.toInt` says so
(two's complement, R7).
-/

namespace Sys2Proof

/-- `u8` (R7): an opcode, mode or register byte, or one byte of memory. -/
abbrev Byte := BitVec 8

/-- A 64-bit register, immediate, offset or memory access (R7): the pattern of an `i64` or of an `f64`. -/
abbrev Word := BitVec 64

end Sys2Proof
end

