-- ==== Sys2Proof/Syntax.lean ====
section
/-!
DEFINITION. The instructions of some_vm CORE as syntax: register names, operand kinds, the ten forms of
spec/opcode_table.json and the instructions themselves (spec/30_encoding.md R51 to R55). A register field is the
raw byte of the encoding, since 8 to 255 is a legal encoding that faults at validation (R58, R61).
-/

namespace Sys2Proof

/-- The eight register names, indices 0 to 7 (spec/10_state.md R10); both register files use them (R12, R126). -/
inductive Reg where
  | ip | sp | bp | a | b | c | d | e
  deriving DecidableEq, Repr

/-- Which register file a register operand addresses (R13, R77): `x[]` or `f[]`. -/
inductive RegKind where
  | int | float
  deriving DecidableEq, Repr

/-- The operand kinds of R54. `intReg` and `floatReg` are the source's RegisterIndex with its namespace. -/
inductive OperandKind where
  | intReg | floatReg | int64Immediate | float64Immediate | memoryIndirect | none
  deriving DecidableEq, Repr

/-- A memory-indirect operand `Mem{base, offset}` (R54): the base index byte and the signed 64-bit offset. -/
structure MemIndirect where
  base : Byte
  offset : Word
  deriving DecidableEq, Repr

/-- The type of the decoded value of an operand kind (R54, last column). -/
abbrev OperandKind.Value : OperandKind → Type
  | .intReg | .floatReg => Byte
  | .int64Immediate | .float64Immediate => Word
  | .memoryIndirect => MemIndirect
  | .none => Unit

/-- The decoded values of an operand-kind sequence, in sequence order (R74). -/
abbrev Operands : List OperandKind → Type
  | [] => Unit
  | k :: ks => k.Value × Operands ks

/-- The ten forms: one per row of spec/opcode_table.json. -/
inductive Form where
  | nop | movRI | movFI | movRR | movLD | movST | movSTI | movFLD | movFST | movFSTI
  deriving DecidableEq, Repr

/-- The instructions: a form with its operand values, destination first (R51, R53). -/
inductive Instr where
  /-- NOP (R90) -/
  | nop
  /-- MOV.RI (R92) -/
  | movRI (rd : Byte) (imm : Word)
  /-- MOV.FI (R93) -/
  | movFI (rd : Byte) (fimm : Word)
  /-- MOV.RR (R94) -/
  | movRR (rd rs : Byte)
  /-- MOV.LD (R101) -/
  | movLD (rd : Byte) (src : MemIndirect)
  /-- MOV.ST (R102) -/
  | movST (dst : MemIndirect) (rs : Byte)
  /-- MOV.STI (R103) -/
  | movSTI (dst : MemIndirect) (imm : Word)
  /-- MOV.FLD (R104) -/
  | movFLD (rd : Byte) (src : MemIndirect)
  /-- MOV.FST (R105) -/
  | movFST (dst : MemIndirect) (rs : Byte)
  /-- MOV.FSTI (R106) -/
  | movFSTI (dst : MemIndirect) (fimm : Word)
  deriving DecidableEq, Repr

/-- The form of an instruction. -/
def Instr.form : Instr → Form
  | .nop => .nop
  | .movRI _ _ => .movRI
  | .movFI _ _ => .movFI
  | .movRR _ _ => .movRR
  | .movLD _ _ => .movLD
  | .movST _ _ => .movST
  | .movSTI _ _ => .movSTI
  | .movFLD _ _ => .movFLD
  | .movFST _ _ => .movFST
  | .movFSTI _ _ => .movFSTI

/-- The register bytes of an instruction with the file each addresses, in encoding order; a memory-indirect
operand contributes its base at its own position, always in the integer file (R75, R13). -/
def Instr.regBytes : Instr → List (RegKind × Byte)
  | .nop => []
  | .movRI rd _ => [(.int, rd)]
  | .movFI rd _ => [(.float, rd)]
  | .movRR rd rs => [(.int, rd), (.int, rs)]
  | .movLD rd src => [(.int, rd), (.int, src.base)]
  | .movST dst rs => [(.int, dst.base), (.int, rs)]
  | .movSTI dst _ => [(.int, dst.base)]
  | .movFLD rd src => [(.float, rd), (.int, src.base)]
  | .movFST dst rs => [(.int, dst.base), (.float, rs)]
  | .movFSTI dst _ => [(.int, dst.base)]

end Sys2Proof
end

