-- ==== Sys2Proof/WellFormed.lean ====
section
/-!
DEFINITION. When an instruction is well formed: every register byte is in 0 to 7 (spec/10_state.md R13,
spec/30_encoding.md R58). Everything else an instruction can hold is legal (R61). An ill-formed instruction still
has an encoding and a meaning: it faults at validation (spec/40_execution_cycle.md R75).
-/

namespace Sys2Proof

/-- R13: "Register indices must lie in [0,7]"; the whole byte is compared. -/
def regByteOk (r : Byte) : Bool := r.toNat ≤ 7

/-- Every register byte of the instruction is in range. -/
def Instr.wf (i : Instr) : Bool := i.regBytes.all fun kr => regByteOk kr.2

end Sys2Proof
end

