-- ==== Sys2Proof/Decode.lean ====
section
/-!
DEFINITION. Byte order, the two decode tables, the code-buffer reads, the decoder and the encoder of some_vm CORE
(spec/20_memory.md R32, R38; spec/30_encoding.md R51 to R66; spec/40_execution_cycle.md R71, R73, R74).
-/

namespace Sys2Proof

/-! ### Byte order (R7, R32, R57) -/

/-- The sum of `b[k] * 2^(8k)` (R7). -/
def leNat : List Byte → Nat
  | [] => 0
  | b :: bs => b.toNat + 256 * leNat bs

/-- The `n` low bytes of `v`, least significant first (R7). -/
def leBytes : Nat → Nat → List Byte
  | 0, _ => []
  | n + 1, v => BitVec.ofNat 8 v :: leBytes n (v / 256)

/-- `le64` (R7). -/
def le64 (bs : List Byte) : Word := BitVec.ofNat 64 (leNat bs)

/-- `le32` (R7). -/
def le32 (bs : List Byte) : BitVec 32 := BitVec.ofNat 32 (leNat bs)

/-- `bytes64` (R7): the 8 bytes of a word, least significant first. -/
def bytes64 (w : Word) : List Byte := leBytes 8 w.toNat

/-! ### Register indices (R10, R13, R58) -/

/-- The index of a register name (R10). -/
def Reg.index : Reg → Nat
  | .ip => 0 | .sp => 1 | .bp => 2 | .a => 3 | .b => 4 | .c => 5 | .d => 6 | .e => 7

/-- The register a register byte names; `none` for 8 to 255 (R13, R58). -/
def Reg.ofByte (b : Byte) : Option Reg :=
  match b.toNat with
  | 0 => some .ip | 1 => some .sp | 2 => some .bp | 3 => some .a
  | 4 => some .b | 5 => some .c | 6 => some .d | 7 => some .e
  | _ => none

/-! ### The instruction table and the mode table (R52, R53, R121) -/

/-- The two names of the InstructionTable (R52). -/
inductive OpName where
  | nop | mov
  deriving DecidableEq, Repr

/-- An InstructionTable entry: name, opcode byte, and whether a mode byte follows (R52). -/
structure InstructionDescriptor where
  name : OpName
  opcode : Byte
  hasMode : Bool
  deriving DecidableEq, Repr

/-- The InstructionTable (R52). -/
def instructionTable : List InstructionDescriptor :=
  [{ name := .nop, opcode := 0x00#8, hasMode := false },
   { name := .mov, opcode := 0x01#8, hasMode := true }]

/-- `lookup(opcode)` (R73). -/
def lookupOpcode (op : Byte) : Option InstructionDescriptor :=
  instructionTable.find? fun d => d.opcode == op

/-- The ModeTable's mode bytes with the form each selects (R53). -/
def modeTable : List (Byte × Form) :=
  [(0x01#8, .movRI), (0x02#8, .movFI), (0x03#8, .movRR), (0x04#8, .movLD), (0x05#8, .movST),
   (0x06#8, .movSTI), (0x07#8, .movFLD), (0x08#8, .movFST), (0x09#8, .movFSTI)]

/-- `lookup(mode_number)` (R73). -/
def lookupMode (m : Byte) : Option Form :=
  (modeTable.find? fun row => row.1 == m).map (·.2)

/-- The operand-kind sequence of a form (R53; NOP has none). -/
abbrev Form.operandKinds : Form → List OperandKind
  | .nop => []
  | .movRI => [.intReg, .int64Immediate]
  | .movFI => [.floatReg, .float64Immediate]
  | .movRR => [.intReg, .intReg]
  | .movLD => [.intReg, .memoryIndirect]
  | .movST => [.memoryIndirect, .intReg]
  | .movSTI => [.memoryIndirect, .int64Immediate]
  | .movFLD => [.floatReg, .memoryIndirect]
  | .movFST => [.memoryIndirect, .floatReg]
  | .movFSTI => [.memoryIndirect, .float64Immediate]

/-- The opcode and mode bytes of a form, in stream order (R51, R53). -/
def Form.header : Form → List Byte
  | .nop => [0x00#8]
  | .movRI => [0x01#8, 0x01#8]
  | .movFI => [0x01#8, 0x02#8]
  | .movRR => [0x01#8, 0x03#8]
  | .movLD => [0x01#8, 0x04#8]
  | .movST => [0x01#8, 0x05#8]
  | .movSTI => [0x01#8, 0x06#8]
  | .movFLD => [0x01#8, 0x07#8]
  | .movFST => [0x01#8, 0x08#8]
  | .movFSTI => [0x01#8, 0x09#8]

/-- The length `L` of a form in bytes (R55). -/
def Form.length : Form → Nat
  | .nop => 1
  | .movRI => 11
  | .movFI => 11
  | .movRR => 4
  | .movLD => 12
  | .movST => 12
  | .movSTI => 19
  | .movFLD => 12
  | .movFST => 12
  | .movFSTI => 19

/-- The length of an instruction in bytes. -/
def Instr.length (i : Instr) : Nat := i.form.length

/-- The bytes an operand kind takes in the instruction (R54). -/
def OperandKind.width : OperandKind → Nat
  | .intReg | .floatReg => 1
  | .int64Immediate | .float64Immediate => 8
  | .memoryIndirect => 9
  | .none => 0

/-! ### Reading the code buffer (R38) -/

/-- Why the fetch unit and the decoder reject a byte stream. -/
inductive DecodeFault where
  /-- A code read at this cursor leaves the code buffer (R38, R145). -/
  | codeBufferOverrun (cursor : Int)
  /-- The opcode byte is not in the InstructionTable (R59, R141). -/
  | unknownOpcode (op : Byte)
  /-- The mode byte is not in the ModeTable (R60, R142). -/
  | unknownMode (m : Byte)
  deriving DecidableEq, Repr

/-- `CodeRead(off, n)` (R38): all or nothing, on exact integers. -/
def codeRead (code : List Byte) (off : Int) (n : Nat) : Except DecodeFault (List Byte) :=
  if off < 0 ∨ (code.length : Int) < off + n then
    .error (.codeBufferOverrun off)
  else
    .ok ((code.drop off.toNat).take n)

/-- `readByte()` (R38). -/
def readByte (code : List Byte) (cur : Int) : Except DecodeFault (Byte × Int) :=
  match codeRead code cur 1 with
  | .error e => .error e
  | .ok bs => .ok (bs.headD 0#8, cur + 1)

/-- `readInt64()` (R38): the pattern of the `i64`. -/
def readInt64 (code : List Byte) (cur : Int) : Except DecodeFault (Word × Int) :=
  match codeRead code cur 8 with
  | .error e => .error e
  | .ok bs => .ok (le64 bs, cur + 8)

/-- `readFloat64()` (R38): the `f64` pattern. -/
def readFloat64 (code : List Byte) (cur : Int) : Except DecodeFault (Word × Int) :=
  match codeRead code cur 8 with
  | .error e => .error e
  | .ok bs => .ok (le64 bs, cur + 8)

/-! ### The addressing-mode decoder (R74) -/

/-- The field of one operand kind (R74): a memory-indirect operand is its base byte, then its offset. -/
def OperandKind.read (code : List Byte) :
    (k : OperandKind) → Int → Except DecodeFault (k.Value × Int)
  | .intReg, cur => readByte code cur
  | .floatReg, cur => readByte code cur
  | .int64Immediate, cur => readInt64 code cur
  | .float64Immediate, cur => readFloat64 code cur
  | .memoryIndirect, cur =>
    match readByte code cur with
    | .error e => .error e
    | .ok (base, cur1) =>
      match readInt64 code cur1 with
      | .error e => .error e
      | .ok (off, cur2) => .ok ({ base := base, offset := off }, cur2)
  | .none, cur => .ok ((), cur)

/-- `DecodeOperands(seq)` (R74): the fields in sequence order, and the cursor after them. -/
def decodeOperands (code : List Byte) :
    (ks : List OperandKind) → Int → Except DecodeFault (Operands ks × Int)
  | [], cur => .ok ((), cur)
  | k :: ks, cur =>
    match k.read code cur with
    | .error e => .error e
    | .ok (v, cur1) =>
      match decodeOperands code ks cur1 with
      | .error e => .error e
      | .ok (vs, cur2) => .ok ((v, vs), cur2)

/-- The instruction of a form and its operand values. -/
def Form.assemble : (fm : Form) → Operands fm.operandKinds → Instr
  | .nop, () => .nop
  | .movRI, (rd, imm, ()) => .movRI rd imm
  | .movFI, (rd, fimm, ()) => .movFI rd fimm
  | .movRR, (rd, rs, ()) => .movRR rd rs
  | .movLD, (rd, src, ()) => .movLD rd src
  | .movST, (dst, rs, ()) => .movST dst rs
  | .movSTI, (dst, imm, ()) => .movSTI dst imm
  | .movFLD, (rd, src, ()) => .movFLD rd src
  | .movFST, (dst, rs, ()) => .movFST dst rs
  | .movFSTI, (dst, fimm, ()) => .movFSTI dst fimm

/-! ### Fetch and dispatch (R71, R73) -/

/-- Stages 2 and 3 of R70: the opcode byte, the InstructionTable, and for a mode-bearing opcode the mode byte
and the ModeTable. No byte after the opcode of NOP is read. -/
def dispatchForm (code : List Byte) (ip0 : Int) : Except DecodeFault (Form × Int) :=
  match readByte code ip0 with
  | .error e => .error e
  | .ok (op, cur) =>
    match lookupOpcode op with
    | none => .error (.unknownOpcode op)
    | some desc =>
      if desc.hasMode then
        match readByte code cur with
        | .error e => .error e
        | .ok (m, cur1) =>
          match lookupMode m with
          | none => .error (.unknownMode m)
          | some fm => .ok (fm, cur1)
      else .ok (.nop, cur)

/-- Stages 2 to 4 of R70: the instruction at stream offset `ip0` and the cursor just past it, or why there
is none. -/
def decodeAt (code : List Byte) (ip0 : Int) : Except DecodeFault (Instr × Int) :=
  match dispatchForm code ip0 with
  | .error e => .error e
  | .ok (fm, cur) =>
    match decodeOperands code fm.operandKinds cur with
    | .error e => .error e
    | .ok (vs, cur1) => .ok (fm.assemble vs, cur1)

/-! ### The encoder (R51, R54, R55) -/

/-- The bytes of one operand field (R54). -/
def OperandKind.encode : (k : OperandKind) → k.Value → List Byte
  | .intReg, idx => [idx]
  | .floatReg, idx => [idx]
  | .int64Immediate, w => bytes64 w
  | .float64Immediate, w => bytes64 w
  | .memoryIndirect, m => m.base :: bytes64 m.offset
  | .none, () => []

/-- The bytes of an operand sequence, in sequence order (R51). -/
def encodeOperands : (ks : List OperandKind) → Operands ks → List Byte
  | [], () => []
  | k :: ks, (v, vs) => k.encode v ++ encodeOperands ks vs

/-- The operand values of an instruction, as its form's sequence. -/
def Instr.operands : (i : Instr) → Operands i.form.operandKinds
  | .nop => ()
  | .movRI rd imm => (rd, imm, ())
  | .movFI rd fimm => (rd, fimm, ())
  | .movRR rd rs => (rd, rs, ())
  | .movLD rd src => (rd, src, ())
  | .movST dst rs => (dst, rs, ())
  | .movSTI dst imm => (dst, imm, ())
  | .movFLD rd src => (rd, src, ())
  | .movFST dst rs => (dst, rs, ())
  | .movFSTI dst fimm => (dst, fimm, ())

/-- The bytes of an instruction (R51, R55): opcode, mode, operand fields. -/
def encode (i : Instr) : List Byte :=
  i.form.header ++ encodeOperands i.form.operandKinds i.operands

/-! ### The machine-readable table (R65) -/

/-- A row of spec/opcode_table.json: match (here `pattern`) and mask over `b[0] + 256*b[1]`, length and form (R65). -/
structure OpcodeRow where
  form : Form
  pattern : BitVec 16
  mask : BitVec 16
  length : Nat
  deriving DecidableEq, Repr

/-- The ten rows (spec/opcode_table.json). -/
def opcodeTable : List OpcodeRow :=
  [{ form := .nop, pattern := 0x0000#16, mask := 0x00FF#16, length := 1 },
   { form := .movRI, pattern := 0x0101#16, mask := 0xFFFF#16, length := 11 },
   { form := .movFI, pattern := 0x0201#16, mask := 0xFFFF#16, length := 11 },
   { form := .movRR, pattern := 0x0301#16, mask := 0xFFFF#16, length := 4 },
   { form := .movLD, pattern := 0x0401#16, mask := 0xFFFF#16, length := 12 },
   { form := .movST, pattern := 0x0501#16, mask := 0xFFFF#16, length := 12 },
   { form := .movSTI, pattern := 0x0601#16, mask := 0xFFFF#16, length := 19 },
   { form := .movFLD, pattern := 0x0701#16, mask := 0xFFFF#16, length := 12 },
   { form := .movFST, pattern := 0x0801#16, mask := 0xFFFF#16, length := 12 },
   { form := .movFSTI, pattern := 0x0901#16, mask := 0xFFFF#16, length := 19 }]

/-- The row a 16-bit value selects: `v & mask = match` (R65). -/
def selectRow (v : BitVec 16) : Option OpcodeRow :=
  opcodeTable.find? fun row => v &&& row.mask == row.pattern

/-! ### The host's view of the decoder -/

/-- The longest instruction, in bytes (R55). -/
def maxInstrLength : Nat := 19

/-- The bytes of an instruction whose first `nbits` bits are `w`, bit 0 the least significant bit of the first
byte, and whose bits above `nbits` are 0. -/
def fetchWordBytes (nbits w : Nat) : List Byte := leBytes maxInstrLength (w % 2 ^ nbits)

/-- The instruction the decoder reads from those bytes. -/
def decodeTableWord (nbits w : Nat) : Option Instr :=
  match decodeAt (fetchWordBytes nbits w) 0 with
  | .ok (i, _) => some i
  | .error _ => none

end Sys2Proof
end

