-- ==== Sys2Proof/Config.lean ====
section
/-!
DEFINITION. What an instance of some_vm CORE fixes: the default values State.reset takes for the parameters of
spec/00_scope.md R5, what an unlisted byte of memory reads as, and the model's one free value. The
parameters themselves are fields of State, so that statements hold for every value of them.
-/

namespace Sys2Proof.Config

/-- R5: "default 64 KiB", that is 65536 bytes. -/
def memSizeDefault : Nat := 65536

/-- DESIGN CHOICE (notes/assumptions/2.md): R5 leaves `STACK_SIZE` OPEN; State.reset takes 0. -/
def stackSizeDefault : Nat := 0

/-- DESIGN CHOICE (notes/assumptions/3.md): R5 leaves `MAX_STEPS` OPEN; State.reset takes `None`. -/
def maxStepsDefault : Option (BitVec 64) := none

/-- DESIGN CHOICE (notes/assumptions/1.md): what a byte of memory that is not listed reads as. Every
`MEM_INIT` of R47 is some canonical list over this byte. -/
def unlistedByte : Byte := 0x00#8

/-- R5, D14: the largest `MEM_SIZE` and the largest `CODE_LEN`, `2^63 - 1`. -/
def maxSize : Nat := 2 ^ 63 - 1

/-- FREE VALUE (notes/assumptions/5.md): what the 64-bit counter `steps` (R20) holds after an increment at
`2^64 - 1`, possible only when `MAX_STEPS = None`, where nothing reads the counter. Nothing is known of it. -/
opaque stepsOverflow : BitVec 64 → BitVec 64

end Sys2Proof.Config
end

