-- ==== Sys2Proof/Machine/State.lean ====
section
/-!
DEFINITION. The complete state of one instance of some_vm CORE (spec/10_state.md section 1), the fault record, the
reasons of the host's outcomes, and the state after reset (spec/10_state.md R26).
-/

namespace Sys2Proof.Machine

/-- The six fault kinds (spec/60_exceptions.md R140). -/
inductive FaultKind where
  | unknownOpcode | unknownMode | registerIndexOutOfRange | memoryOutOfBounds
  | codeBufferOverrun | stepBudgetExceeded
  deriving DecidableEq, Repr

/-- The fault record `(kind, info)` (spec/10_state.md R19), `info` typed per kind as in
spec/60_exceptions.md R150. The cursor and the address are exact integers. -/
inductive FaultRecord where
  /-- the opcode byte (R141) -/
  | unknownOpcode (op : Byte)
  /-- the mode byte (R142) -/
  | unknownMode (m : Byte)
  /-- the register index byte (R143) -/
  | registerIndexOutOfRange (r : Byte)
  /-- the effective address, exact (R144) -/
  | memoryOutOfBounds (addr : Int)
  /-- the cursor at which the failing read started (R145) -/
  | codeBufferOverrun (cursor : Int)
  /-- the budget `n` (R146) -/
  | stepBudgetExceeded (n : BitVec 64)
  deriving DecidableEq, Repr

/-- The engine state, the spec's `state` (spec/10_state.md R18). -/
inductive Engine where
  | running
  | halted
  | faulted (r : FaultRecord)
  deriving DecidableEq, Repr

/-- A register file of eight 64-bit registers under the eight names (spec/10_state.md R10, R12). -/
structure RegFile where
  ip : Word
  sp : Word
  bp : Word
  a : Word
  b : Word
  c : Word
  d : Word
  e : Word
  deriving DecidableEq, Repr

/-- All eight registers zero (spec/10_state.md R26). -/
def RegFile.zero : RegFile :=
  { ip := 0, sp := 0, bp := 0, a := 0, b := 0, c := 0, d := 0, e := 0 }

/-- The configuration values of an instance (spec/10_state.md R21), fixed at construction. -/
structure Configuration where
  /-- `MEM_SIZE` -/
  memSize : Nat
  /-- `STACK_SIZE` -/
  stackSize : Nat
  /-- `DATA_SIZE`, from the image header -/
  dataSize : BitVec 32
  /-- `MAX_STEPS` -/
  maxSteps : Option (BitVec 64)
  deriving DecidableEq, Repr

/-- Memory contents: addresses strictly rising, no byte equal to `Config.unlistedByte`, which is what an
address that is not listed holds (notes/assumptions/1.md). -/
abbrev Mem := List Host.Cell

/-- The complete state of one instance (spec/10_state.md section 1: "Nothing else is state"). -/
structure State where
  /-- the integer register file `x[0..7]` (R10); `x.ip` is `IP` (R14) -/
  x : RegFile
  /-- the floating-point register file `f[0..7]`, as 64-bit patterns (R12) -/
  f : RegFile
  /-- the engine state with its fault record (R18, R19) -/
  engine : Engine
  /-- the step counter (R20) -/
  steps : BitVec 64
  /-- the memory buffer (R23) -/
  mem : Mem
  /-- the code buffer, read-only after construction (R22) -/
  code : List Byte
  /-- the configuration values (R21) -/
  cfg : Configuration
  deriving DecidableEq, Repr

/-- Reasons for the host's `fault` outcome. There is none: every fault of the spec is the transition of the
engine into `Faulted(kind, info)`, a next state (spec/60_exceptions.md R149; notes/assumptions/7.md). -/
inductive Fault
  deriving DecidableEq, Repr

/-- Reasons for the host's `refused` outcome. -/
inductive Refusal where
  /-- Raised only by an arm of `exec` whose instruction has no meaning yet (none in this model). Safe: the
  machine stops where the hardware would go on. -/
  | notModelled (mnemonic : String)
  deriving DecidableEq, Repr

/-- The answer type of `exec`, `step` and every meaning. -/
abbrev Answer := Host.Outcome State Fault Refusal

/-- The machine right after reset: construction from the image `00 00 00 00` with the default configuration
and zero memory, then the start of an execution request, which changes nothing (spec/10_state.md R26,
spec/70_reset_and_hazards.md R172, R173; notes/assumptions/1.md to 4.md for the OPEN parameters). -/
def State.reset : State where
  x := RegFile.zero
  f := RegFile.zero
  engine := .running
  steps := 0
  mem := []
  code := []
  cfg :=
    { memSize := Config.memSizeDefault
      stackSize := Config.stackSizeDefault
      dataSize := 0
      maxSteps := Config.maxStepsDefault }

end Sys2Proof.Machine
end

