-- ==== Sys2Proof/Machine/Ops.lean ====
section
/-!
DEFINITION. The named operations of the machine: the register-file multiplexer (spec/40_execution_cycle.md R77), the
memory buffer and its bounds check (spec/20_memory.md R33 to R36), raising a fault (spec/60_exceptions.md R149), the
step budget (R72), the fetch (R71), and the commit of an instruction's single effect (R76).
There is no return from a fault (R152), so there is no operation for one.
-/

namespace Sys2Proof.Machine

/-! ### The fault record as the status port shows it (R140, R150) -/

/-- The kind of a fault record. -/
def FaultRecord.kind : FaultRecord → FaultKind
  | .unknownOpcode _ => .unknownOpcode
  | .unknownMode _ => .unknownMode
  | .registerIndexOutOfRange _ => .registerIndexOutOfRange
  | .memoryOutOfBounds _ => .memoryOutOfBounds
  | .codeBufferOverrun _ => .codeBufferOverrun
  | .stepBudgetExceeded _ => .stepBudgetExceeded

/-- The `info` of a fault record as one number (R150). -/
def FaultRecord.info : FaultRecord → Int
  | .unknownOpcode op => op.toNat
  | .unknownMode m => m.toNat
  | .registerIndexOutOfRange r => r.toNat
  | .memoryOutOfBounds addr => addr
  | .codeBufferOverrun cursor => cursor
  | .stepBudgetExceeded n => n.toNat

/-- The numeric code of a kind on the status port (R140). -/
def FaultKind.code : FaultKind → Nat
  | .unknownOpcode => 1
  | .unknownMode => 2
  | .registerIndexOutOfRange => 3
  | .memoryOutOfBounds => 4
  | .codeBufferOverrun => 5
  | .stepBudgetExceeded => 6

/-- What the fetch unit and the decoder raise (R141, R142, R145). -/
def recordOf : DecodeFault → FaultRecord
  | .codeBufferOverrun cursor => .codeBufferOverrun cursor
  | .unknownOpcode op => .unknownOpcode op
  | .unknownMode m => .unknownMode m

/-! ### Registers (R10, R12, R77) -/

/-- Read a register of one file. -/
def RegFile.get (file : RegFile) : Reg → Word
  | .ip => file.ip | .sp => file.sp | .bp => file.bp | .a => file.a
  | .b => file.b | .c => file.c | .d => file.d | .e => file.e

/-- Write a register of one file: the whole 64 bits (R10). -/
def RegFile.set (file : RegFile) (r : Reg) (w : Word) : RegFile :=
  match r with
  | .ip => { file with ip := w }
  | .sp => { file with sp := w }
  | .bp => { file with bp := w }
  | .a => { file with a := w }
  | .b => { file with b := w }
  | .c => { file with c := w }
  | .d => { file with d := w }
  | .e => { file with e := w }

/-- `get(index, kind)` (R77). -/
def State.getReg (s : State) (k : RegKind) (r : Reg) : Word :=
  match k with
  | .int => s.x.get r
  | .float => s.f.get r

/-- `set(index, kind, value)` (R77). -/
def State.setReg (s : State) (k : RegKind) (r : Reg) (w : Word) : State :=
  match k with
  | .int => { s with x := s.x.set r w }
  | .float => { s with f := s.f.set r w }

/-! ### The memory buffer, byte by byte -/

/-- The canonical form: addresses strictly rising, no listed byte equal to the unlisted one. -/
def Mem.wf : Mem → Bool
  | [] => true
  | c :: rest => c.2 != Config.unlistedByte && rest.all (fun c' => c.1 < c'.1) && Mem.wf rest

/-- Every listed address is below `n`. -/
def Mem.below (m : Mem) (n : Nat) : Bool := m.all fun c => c.1 < n

/-- The byte at an address. -/
def Mem.readByte : Mem → Nat → Byte
  | [], _ => Config.unlistedByte
  | c :: rest, a => if a = c.1 then c.2 else Mem.readByte rest a

/-- The memory with one byte replaced, kept canonical. -/
def Mem.writeByte : Mem → Nat → Byte → Mem
  | [], a, b => if b = Config.unlistedByte then [] else [(a, b)]
  | c :: rest, a, b =>
    if a < c.1 then
      if b = Config.unlistedByte then c :: rest else (a, b) :: c :: rest
    else if a = c.1 then
      if b = Config.unlistedByte then rest else (a, b) :: rest
    else c :: Mem.writeByte rest a b

/-- The `n` bytes from address `a` upward. -/
def Mem.readBytes (m : Mem) : Nat → Nat → List Byte
  | _, 0 => []
  | a, n + 1 => Mem.readByte m a :: Mem.readBytes m (a + 1) n

/-- The memory with the given bytes stored from address `a` upward. -/
def Mem.writeBytes : Mem → Nat → List Byte → Mem
  | m, _, [] => m
  | m, a, b :: bs => Mem.writeBytes (Mem.writeByte m a b) (a + 1) bs

/-- The canonical memory that holds the given bytes from address 0 upward, for a `MEM_INIT` given as a byte
array (R47). -/
def Mem.ofBytes (bs : List Byte) : Mem := Mem.writeBytes [] 0 bs

/-! ### Memory access (R33 to R37) -/

/-- The bounds check, exactly `addr < 0 or addr + 8 > MEM_SIZE` on mathematical integers (R34, R35). -/
def State.boundsCheck (s : State) (addr : Int) : Except FaultRecord Nat :=
  if addr < 0 ∨ (s.cfg.memSize : Int) < addr + 8 then
    .error (.memoryOutOfBounds addr)
  else
    .ok addr.toNat

/-- `MemRead(addr, 8)` (R33): little-endian, no alignment (R32, R36). -/
def State.memRead (s : State) (addr : Int) : Except FaultRecord Word :=
  match s.boundsCheck addr with
  | .error r => .error r
  | .ok a => .ok (le64 (Mem.readBytes s.mem a 8))

/-- The 8 bytes of a word stored from address `a` upward, the write of `MemWrite` once its bounds check has
passed (R33). -/
def State.storeWord (s : State) (a : Nat) (w : Word) : State :=
  { s with mem := Mem.writeBytes s.mem a (bytes64 w) }

/-- `MemWrite(addr, 8, w)` (R33): the bounds check, then all 8 bytes. -/
def State.memWrite (s : State) (addr : Int) (w : Word) : Except FaultRecord State :=
  match s.boundsCheck addr with
  | .error r => .error r
  | .ok a => .ok (s.storeWord a w)

/-! ### Faults and halting (R18, R149) -/

/-- `raise K(i)` (R149): the engine enters `Faulted(K, i)`; nothing else changes. -/
def State.raise (s : State) (r : FaultRecord) : State := { s with engine := .faulted r }

/-- The transition to `Halted` (R18, R90): nothing else changes. -/
def State.halt (s : State) : State := { s with engine := .halted }

/-! ### Stages 1 to 4 of the step (R70) -/

/-- The budget check (R72): the record it raises, if the budget is spent. -/
def State.budgetFault (s : State) : Option FaultRecord :=
  match s.cfg.maxSteps with
  | none => none
  | some n => if n ≤ s.steps then some (.stepBudgetExceeded n) else none

/-- `steps <- steps + 1` (R70 stage 1). DEDUCED (notes/assumptions/16.md): the step is counted without a budget too,
as R70, R20 and R157 have it, although R72 says that with `MAX_STEPS = None` "stage 1 does nothing". At
`2^64 - 1`, reached only without a budget, the value is free (R20; notes/assumptions/5.md). -/
def State.countStep (s : State) : State :=
  { s with
    steps := if s.steps = BitVec.allOnes 64 then Config.stepsOverflow s.steps else s.steps + 1 }

/-- Fetch, dispatch and operand decode at `IP` (R71, R73, R74): the instruction and the cursor after it. -/
def State.fetch (s : State) : Except FaultRecord (Instr × Int) :=
  match decodeAt s.code s.x.ip.toInt with
  | .error e => .error (recordOf e)
  | .ok r => .ok r

/-! ### Stages 6 and 7: the single effect and its commit (R76) -/

/-- The one effect of a MOV (R70 stage 7): one register write, or one 8-byte store at a checked address. -/
inductive Effect where
  | writeReg (k : RegKind) (r : Reg) (w : Word)
  | store (a : Nat) (w : Word)
  deriving DecidableEq, Repr

/-- `IP <- ip0 + L` (R15). -/
def State.advance (s : State) (len : Nat) : State :=
  { s with x := s.x.set .ip (s.x.ip + BitVec.ofNat 64 len) }

/-- Apply an effect. -/
def State.applyEffect (s : State) : Effect → State
  | .writeReg k r w => s.setReg k r w
  | .store a w => s.storeWord a w

/-- Commit (R76): the sequential update of `IP`, then the effect, which replaces it when the effect writes
integer register 0 (R95). -/
def State.commit (s : State) (len : Nat) (eff : Effect) : State := (s.advance len).applyEffect eff

/-- The end of a step whose stages 5 and 6 gave a fault or an effect (R70). -/
def State.finish (s : State) (len : Nat) : Except FaultRecord Effect → State
  | .error r => s.raise r
  | .ok eff => s.commit len eff

/-! ### Placing an instruction where the next step fetches -/

/-- Where the next step's fetch can find bytes: `IP`, if it is an offset in or just past the code buffer with
room below `2^63`; else 0. -/
def State.fetchPlace (s : State) : Nat :=
  if 0 ≤ s.x.ip.toInt ∧ s.x.ip.toInt.toNat ≤ s.code.length
      ∧ s.x.ip.toInt.toNat + maxInstrLength ≤ Config.maxSize then
    s.x.ip.toInt.toNat
  else 0

/-- The state whose very next step runs the given bytes: they stand in the code buffer at `fetchPlace`, `IP`
points there, the engine is `Running` and the budget is not spent. What the fetch does not need is
unchanged (notes/assumptions/4.md). -/
def State.placeBytes (s : State) (bs : List Byte) : State :=
  { s with
    x := s.x.set .ip (BitVec.ofNat 64 s.fetchPlace)
    engine := .running
    code := s.code.take s.fetchPlace ++ bs ++ s.code.drop (s.fetchPlace + bs.length)
    cfg :=
      { s.cfg with maxSteps := if s.budgetFault = none then s.cfg.maxSteps else none } }

end Sys2Proof.Machine
end

