-- ==== Sys2Proof/Machine/Operands.lean ====
section
/-!
DEFINITION. The operand forms of some_vm CORE: register validation (spec/40_execution_cycle.md R75), register sources
(spec/10_state.md R16) and the one addressing mode, base plus offset (spec/43_mov_memory.md R100).
-/

namespace Sys2Proof.Machine

/-- Stage 5 for one register byte (R75): the register it names, or `RegisterIndexOutOfRange` with the byte. -/
def validate (r : Byte) : Except FaultRecord Reg :=
  match Reg.ofByte r with
  | none => .error (.registerIndexOutOfRange r)
  | some q => .ok q

/-- Stage 5 for a form with one register byte. -/
def withReg (r : Byte) (k : Reg → Except FaultRecord Effect) : Except FaultRecord Effect :=
  match validate r with
  | .error e => .error e
  | .ok q => k q

/-- Stage 5 for a form with two register bytes: the first operand's byte is compared first (R75). -/
def withRegs (r1 r2 : Byte) (k : Reg → Reg → Except FaultRecord Effect) :
    Except FaultRecord Effect :=
  withReg r1 fun q1 => withReg r2 fun q2 => k q1 q2

/-- The effective address `EA(rb, offset)` (R100): the exact sum of two `i64` values, never wrapped; the base
is an integer register in every form (D4), and base `IP` reads `ip0` (R96). -/
def State.ea (s : State) (rb : Reg) (offset : Word) : Int := (s.x.get rb).toInt + offset.toInt

/-- A load (R101, R104): the word at the address, written to a register of the given file. -/
def State.load (s : State) (k : RegKind) (rd rb : Reg) (offset : Word) : Except FaultRecord Effect :=
  match s.memRead (s.ea rb offset) with
  | .error e => .error e
  | .ok w => .ok (.writeReg k rd w)

/-- A store (R102, R103, R105, R106): the bounds check, then the 8 bytes as the effect to commit. -/
def State.store (s : State) (rb : Reg) (offset : Word) (w : Word) : Except FaultRecord Effect :=
  match s.boundsCheck (s.ea rb offset) with
  | .error e => .error e
  | .ok a => .ok (.store a w)

end Sys2Proof.Machine
end

