-- ==== Sys2Proof/Machine/Control.lean ====
section
/-!
DEFINITION. The control family of some_vm CORE: NOP, the halting instruction (spec/41_nop.md R90).
-/

namespace Sys2Proof.Machine

/-- NOP (R90): the engine enters `Halted`; every register, `IP` included, and memory keep their values. -/
def execNop (s : State) : Answer := .next s.halt

end Sys2Proof.Machine
end

