-- ==== Sys2Proof/Machine/Flags.lean ====
section
/-!
DEFINITION. The flags of some_vm CORE: there are none. "The hardware has no status flags, no condition codes and no
predicate registers" (spec/10_state.md R17), no floating-point exception flag or control register (R12), and no
instruction's rule writes one. This file therefore declares nothing.
-/
end

