-- ==== Sys2Proof/Machine/MovMemory.lean ====
section
/-!
DEFINITION. MOV, memory forms, modes 4 to 9 (spec/43_mov_memory.md R100 to R107): stages 5 to 7 of
spec/40_execution_cycle.md R70.
-/

namespace Sys2Proof.Machine

/-- MOV.LD (R101): `x[rd] <- toI64(MemRead(EA, 8))`; `rd = 0` is a jump (R95). -/
def execMovLD (rd : Byte) (src : MemIndirect) (s : State) : Answer :=
  .next (s.finish Form.movLD.length
    (withRegs rd src.base fun p rb => s.load .int p rb src.offset))

/-- MOV.ST (R102): `MemWrite(EA, 8, x[rs])`. -/
def execMovST (dst : MemIndirect) (rs : Byte) (s : State) : Answer :=
  .next (s.finish Form.movST.length
    (withRegs dst.base rs fun rb q => s.store rb dst.offset (s.getReg .int q)))

/-- MOV.STI (R103): `MemWrite(EA, 8, imm)`. -/
def execMovSTI (dst : MemIndirect) (imm : Word) (s : State) : Answer :=
  .next (s.finish Form.movSTI.length
    (withReg dst.base fun rb => s.store rb dst.offset imm))

/-- MOV.FLD (R104): `f[rd] <- MemRead(EA, 8)`. -/
def execMovFLD (rd : Byte) (src : MemIndirect) (s : State) : Answer :=
  .next (s.finish Form.movFLD.length
    (withRegs rd src.base fun p rb => s.load .float p rb src.offset))

/-- MOV.FST (R105): `MemWrite(EA, 8, f[rs])`. -/
def execMovFST (dst : MemIndirect) (rs : Byte) (s : State) : Answer :=
  .next (s.finish Form.movFST.length
    (withRegs dst.base rs fun rb q => s.store rb dst.offset (s.getReg .float q)))

/-- MOV.FSTI (R106): `MemWrite(EA, 8, fimm)`. -/
def execMovFSTI (dst : MemIndirect) (fimm : Word) (s : State) : Answer :=
  .next (s.finish Form.movFSTI.length
    (withReg dst.base fun rb => s.store rb dst.offset fimm))

end Sys2Proof.Machine
end

