-- ==== Sys2Proof/Machine/MovRegister.lean ====
section
/-!
DEFINITION. MOV, register and immediate forms, modes 1, 2 and 3 (spec/42_mov_register.md R92 to R97): stages 5 to 7 of
spec/40_execution_cycle.md R70.
-/

namespace Sys2Proof.Machine

/-- MOV.RI (R92): `x[rd] <- imm`; `rd = 0` is a jump (R95). -/
def execMovRI (rd : Byte) (imm : Word) (s : State) : Answer :=
  .next (s.finish Form.movRI.length (withReg rd fun p => .ok (.writeReg .int p imm)))

/-- MOV.FI (R93): `f[rd] <- fimm`, all 64 bits. -/
def execMovFI (rd : Byte) (fimm : Word) (s : State) : Answer :=
  .next (s.finish Form.movFI.length (withReg rd fun p => .ok (.writeReg .float p fimm)))

/-- MOV.RR (R94): `x[rd] <- x[rs]`, the source read at the start of the step (R96). -/
def execMovRR (rd rs : Byte) (s : State) : Answer :=
  .next (s.finish Form.movRR.length
    (withRegs rd rs fun p q => .ok (.writeReg .int p (s.getReg .int q))))

end Sys2Proof.Machine
end

