-- ==== Sys2Proof/Machine/Dispatch.lean ====
section
/-!
DEFINITION. One arm per instruction of spec/opcode_table.json: the "one dispatch table keyed by (opcode, mode)" of
spec/40_execution_cycle.md R73.
-/

namespace Sys2Proof.Machine

def exec (i : Instr) (s : State) : Host.Outcome State Fault Refusal :=
  match i with
  | .nop => Sys2Proof.Machine.execNop s
  | .movRI rd imm => Sys2Proof.Machine.execMovRI rd imm s
  | .movFI rd fimm => Sys2Proof.Machine.execMovFI rd fimm s
  | .movRR rd rs => Sys2Proof.Machine.execMovRR rd rs s
  | .movLD rd src => Sys2Proof.Machine.execMovLD rd src s
  | .movST dst rs => Sys2Proof.Machine.execMovST dst rs s
  | .movSTI dst imm => Sys2Proof.Machine.execMovSTI dst imm s
  | .movFLD rd src => Sys2Proof.Machine.execMovFLD rd src s
  | .movFST dst rs => Sys2Proof.Machine.execMovFST dst rs s
  | .movFSTI dst fimm => Sys2Proof.Machine.execMovFSTI dst fimm s

end Sys2Proof.Machine
end

