-- ==== Sys2Proof/Machine/Step.lean ====
section
/-!
DEFINITION. One step of the engine (spec/40_execution_cycle.md R70): stages 0 to 4 here, stages 5 to 7 in the meaning
that `exec` calls.
-/

namespace Sys2Proof.Machine

/-- `Step()` (R70). A terminal state is left as it is (R79); the budget is checked before the fetch (R72). -/
def step (s : State) : Host.Outcome State Fault Refusal :=
  match s.engine with
  | .halted => .next s
  | .faulted _ => .next s
  | .running =>
    match s.budgetFault with
    | some r => .next (s.raise r)
    | none =>
      match s.countStep.fetch with
      | .error r => .next (s.countStep.raise r)
      | .ok (i, _) => exec i s.countStep

/-- The state whose next step fetches and runs the instruction whose first `nbits` bits are `w` (the table's
numbering), the bits above being 0 (notes/assumptions/4.md). -/
def State.withFetchWord (s : State) (nbits w : Nat) : State :=
  s.placeBytes (fetchWordBytes nbits w)

end Sys2Proof.Machine
end

