-- ==== Sys2Proof/Machine/Protocol.lean ====
section
/-!
DEFINITION. What the host does with an instance of some_vm CORE, beside the engine's own step: construction, the
execution request, the status and diagnostics ports, destruction (spec/50_interfaces.md R125 to R131;
spec/70_reset_and_hazards.md R170 to R176; spec/40_execution_cycle.md R78), and the region convention of
spec/20_memory.md R31. The host acts only outside an execution, and its execution request is synchronous
(notes/assumptions/9.md).
-/

namespace Sys2Proof.Machine

/-! ### Construction (R127, R171, R172) -/

/-- What the host supplies at construction (R127): the configuration, `MEM_INIT` as a canonical memory, and
the program image `P`. -/
structure Params where
  memSize : Nat
  stackSize : Nat
  maxSteps : Option (BitVec 64)
  memInit : Mem
  image : List Byte
  deriving DecidableEq, Repr

/-- The parameters are in the ranges of R5 (D14), and `MEM_INIT` is a canonical memory of `MEM_SIZE` bytes. -/
def Params.wf (p : Params) : Bool :=
  p.memSize ≤ Config.maxSize && p.image.length ≤ Config.maxSize + 4 &&
    Mem.wf p.memInit && Mem.below p.memInit p.memSize

/-- The two ways construction fails (R171). -/
inductive ConstructionFault where
  | headerTruncated
  | layoutInvariant
  deriving DecidableEq, Repr

/-- `Construct(P, MEM_SIZE, STACK_SIZE, MAX_STEPS, MEM_INIT)` (R171, R172). -/
def construct (p : Params) : Except ConstructionFault State :=
  if p.image.length < 4 then
    .error .headerTruncated
  else if p.memSize < (le32 (p.image.take 4)).toNat + p.stackSize then
    .error .layoutInvariant
  else
    .ok
      { x := RegFile.zero
        f := RegFile.zero
        engine := .running
        steps := 0
        mem := p.memInit
        code := p.image.drop 4
        cfg :=
          { memSize := p.memSize
            stackSize := p.stackSize
            dataSize := le32 (p.image.take 4)
            maxSteps := p.maxSteps } }

/-! ### The execution request (R78, R128, R173, R174) -/

/-- The reset at the start of an execution request (R173): memory, code and configuration keep their values. -/
def State.requestReset (s : State) : State :=
  { s with x := RegFile.zero, f := RegFile.zero, steps := 0, engine := .running }

/-- `n` steps (R78), stopping where the model stops. -/
def runSteps : Nat → State → Answer
  | 0, s => .next s
  | n + 1, s =>
    match step s with
    | .next t => runSteps n t
    | .fault r => .fault r
    | .refused r => .refused r

/-- `Execute()` on `s` ends in `t` (R78): the reset, then steps until a terminal state. No such `t` exists
where the run does not end. -/
def ExecutesTo (s t : State) : Prop :=
  ∃ n, runSteps n s.requestReset = .next t ∧ t.engine ≠ .running

/-! ### The ports (R125, R126) -/

/-- What the status port shows (R125), with the numeric coding of R140. -/
inductive Status where
  | running
  | halted
  | faulted (code : Nat) (info : Int)
  deriving DecidableEq, Repr

/-- The status port (R125). -/
def State.status (s : State) : Status :=
  match s.engine with
  | .running => .running
  | .halted => .halted
  | .faulted r => .faulted r.kind.code r.info

/-- What the diagnostics port shows (R126): an `i64`, or an `f64` pattern. -/
inductive DiagValue where
  | int (v : Int)
  | float (w : Word)
  deriving DecidableEq, Repr

/-- The diagnostics port (R126): the architectural value of a register of either file. -/
def State.diagnostics (s : State) (k : RegKind) (r : Reg) : DiagValue :=
  match k with
  | .int => .int (s.x.get r).toInt
  | .float => .float (s.f.get r)

/-- The names the diagnostics port takes (R10, R126). -/
def registerName : Reg → String
  | .ip => "IP" | .sp => "SP" | .bp => "BP" | .a => "A"
  | .b => "B" | .c => "C" | .d => "D" | .e => "E"

/-! ### The host protocol (R9, R27, R128, R130) -/

/-- Where the host stands with the core: no instance, an instance outside any execution, or an instance in one,
with the host's execution request not yet returned. -/
inductive Lifecycle where
  | noInstance
  | atRest (s : State)
  | executing (s : State)
  deriving DecidableEq, Repr

/-- The host's moves (R130). -/
inductive HostAction where
  | construct (p : Params)
  | execute
  | readStatus
  | readRegister (k : RegKind) (r : Reg)
  | destroy
  deriving DecidableEq, Repr

/-- What an execution request returns (R78): `Halted` or `Faulted(kind, info)`, nothing else. -/
inductive RunOutcome where
  | halted
  | faulted (kind : FaultKind) (info : Int)
  deriving DecidableEq, Repr

/-- The outcome of an execution that stands in this state; none while `state = Running` (R78). -/
def State.outcome? (s : State) : Option RunOutcome :=
  match s.engine with
  | .running => none
  | .halted => some .halted
  | .faulted r => some (.faulted r.kind r.info)

/-- What the host gets from a move (R130, last column). -/
inductive HostAnswer where
  /-- construct: an instance in `Running` with zero registers -/
  | constructed
  /-- construct: the construction fault -/
  | constructionFault (c : ConstructionFault)
  /-- execute: how the run ended -/
  | outcome (o : RunOutcome)
  /-- read status -/
  | status (st : Status)
  /-- read a register -/
  | value (v : DiagValue)
  /-- destroy: nothing -/
  | nothing
  deriving DecidableEq, Repr

/-- Moves the host does not have (R130). -/
inductive HostRefusal where
  /-- construct while an instance exists -/
  | instanceExists
  /-- any other move while none exists -/
  | instanceMissing
  /-- an execution request on a `Faulted` instance (R174) -/
  | instanceFaulted
  /-- any move during an execution: the host waits for its request to return (R128), and nothing outside the
  engine reads or writes the instance for the duration of one execution (R9, R27) -/
  | executionInFlight
  deriving DecidableEq, Repr

/-- The start of an execution request (R128, R130, R173, R174). -/
def requestExecution : Lifecycle → Except HostRefusal Lifecycle
  | .noInstance => .error .instanceMissing
  | .executing _ => .error .executionInFlight
  | .atRest s =>
    match s.engine with
    | .faulted _ => .error .instanceFaulted
    | .halted => .ok (.executing s.requestReset)
    | .running => .ok (.executing s.requestReset)

/-- The start of a move of the host (R130): where the core then stands, and what the host gets. Every move but
`execute` is answered at once; `execute` is answered by the engine turn that ends the run (`engineMove`). -/
def hostMove (l : Lifecycle) (a : HostAction) :
    Except HostRefusal (Lifecycle × Option HostAnswer) :=
  match l with
  | .executing _ => .error .executionInFlight
  | .noInstance =>
    match a with
    | .construct p =>
      match Machine.construct p with
      | .error c => .ok (.noInstance, some (.constructionFault c))
      | .ok s => .ok (.atRest s, some .constructed)
    | .execute => .error .instanceMissing
    | .readStatus => .error .instanceMissing
    | .readRegister _ _ => .error .instanceMissing
    | .destroy => .error .instanceMissing
  | .atRest s =>
    match a with
    | .construct _ => .error .instanceExists
    | .execute =>
      match requestExecution (.atRest s) with
      | .error e => .error e
      | .ok l' => .ok (l', none)
    | .readStatus => .ok (.atRest s, some (.status s.status))
    | .readRegister k r => .ok (.atRest s, some (.value (s.diagnostics k r)))
    | .destroy => .ok (.noInstance, some .nothing)

/-- One turn of the engine (R78, R172): it steps only inside an execution, and the step that makes the engine
terminal returns the host's request with the outcome. -/
def engineMove : Lifecycle → Lifecycle × Option HostAnswer
  | .noInstance => (.noInstance, none)
  | .atRest s => (.atRest s, none)
  | .executing s =>
    match step s with
    | .next t =>
      match t.outcome? with
      | none => (.executing t, none)
      | some o => (.atRest t, some (.outcome o))
    | .fault _ => (.executing s, none)
    | .refused _ => (.executing s, none)

/-- At most `n` turns of the engine, up to the one that answers the host. -/
def awaitAnswer : Nat → Lifecycle → Option (Lifecycle × HostAnswer)
  | 0, _ => none
  | n + 1, l =>
    match engineMove l with
    | (l', some ans) => some (l', ans)
    | (l', none) => awaitAnswer n l'

/-- The host makes the move and gets the answer (R128, R130): a move answered at once, or one whose answer some
turn of the engine gives. A request whose run never ends gets none. -/
def HostCall (l : Lifecycle) (a : HostAction) (l' : Lifecycle) (ans : HostAnswer) : Prop :=
  hostMove l a = .ok (l', some ans) ∨
    ∃ l1 n, hostMove l a = .ok (l1, none) ∧ awaitAnswer n l1 = some (l', ans)

/-! ### The region convention (R31) -/

/-- The three regions of the memory buffer. -/
inductive Region where
  | data | stack | heap
  deriving DecidableEq, Repr

/-- The region of an address (R31); software's convention, which no access consults. -/
def State.region (s : State) (a : Nat) : Option Region :=
  if a < s.cfg.dataSize.toNat then some .data
  else if a < s.cfg.dataSize.toNat + s.cfg.stackSize then some .stack
  else if a < s.cfg.memSize then some .heap
  else none

end Sys2Proof.Machine
end

