-- ==== Sys2Proof/Safety.lean ====
section
/-!
DEFINITION. The terms the claims about some_vm CORE use: when a step executes an instruction, the invariant of every
reachable state, the fault a step must report, read off the raw bytes in the priority order of
spec/60_exceptions.md R148, and what it means for two states to differ only where an instruction may write.
-/

namespace Sys2Proof.Machine

/-! ### When a step executes -/

/-- The engine steps and the budget lets it (R70 stages 0 and 1). -/
def State.Ready (s : State) : Prop := s.engine = .running ∧ s.budgetFault = none

/-- The bytes stand in the code buffer from this offset on. -/
def CodeAt (code : List Byte) (off : Int) (bs : List Byte) : Prop :=
  0 ≤ off ∧ bs <+: code.drop off.toNat

/-- The bytes stand in the code buffer from `IP` on. -/
def State.CodeAtIp (s : State) (bs : List Byte) : Prop := CodeAt s.code s.x.ip.toInt bs

/-- The code buffer ends after these bytes from `IP` on. -/
def State.CodeEndsAfter (s : State) (bs : List Byte) : Prop :=
  0 ≤ s.x.ip.toInt ∧ s.x.ip.toInt.toNat ≤ s.code.length ∧ s.code.drop s.x.ip.toInt.toNat = bs

/-! ### The invariant -/

/-- The `info` of a fault record is in the range R150 gives it. -/
def State.Legal (s : State) : FaultRecord → Prop
  | .unknownOpcode op => 2 ≤ op.toNat
  | .unknownMode m => m.toNat = 0 ∨ 10 ≤ m.toNat
  | .registerIndexOutOfRange r => 8 ≤ r.toNat
  | .memoryOutOfBounds addr =>
    -2 ^ 64 ≤ addr ∧ addr ≤ 2 ^ 64 - 2 ∧ (addr < 0 ∨ (s.cfg.memSize : Int) < addr + 8)
  | .codeBufferOverrun cur =>
    -2 ^ 63 ≤ cur ∧ cur < 2 ^ 63 ∧ (cur < 0 ∨ (s.code.length : Int) < cur + 8)
  | .stepBudgetExceeded n => s.cfg.maxSteps = some n ∧ n ≤ s.steps

/-- The invariant of every reachable state. -/
structure State.Inv (s : State) : Prop where
  /-- memory is in canonical form -/
  memWf : Mem.wf s.mem = true
  /-- no byte outside the buffer is held (R23) -/
  memBelow : Mem.below s.mem s.cfg.memSize = true
  /-- `MEM_SIZE <= 2^63 - 1` (R5) -/
  memSize : s.cfg.memSize ≤ Config.maxSize
  /-- `CODE_LEN <= 2^63 - 1` (R5) -/
  codeLen : s.code.length ≤ Config.maxSize
  /-- the layout invariant `DATA_SIZE + STACK_SIZE <= MEM_SIZE` (R31) -/
  layout : s.cfg.dataSize.toNat + s.cfg.stackSize ≤ s.cfg.memSize
  /-- `steps` never exceeds the budget (R20) -/
  budget : ∀ n, s.cfg.maxSteps = some n → s.steps ≤ n
  /-- the fault record is one the spec can record (R150) -/
  record : ∀ r, s.engine = .faulted r → s.Legal r

/-! ### The first fault of a step, from the raw bytes (R148) -/

/-- The code byte at `IP + k`, if the code buffer has one. -/
def State.codeByte (s : State) (k : Nat) : Option Byte :=
  if s.x.ip.toInt + k < 0 then none else s.code[(s.x.ip.toInt + k).toNat]?

/-- The 8 code bytes at `IP + k` as a word. -/
def State.codeWord (s : State) (k : Nat) : Word :=
  le64 ((s.code.drop (s.x.ip.toInt + k).toNat).take 8)

/-- The operand fields of a mode as (offset from the opcode byte, width), in encoding order (R55). -/
def modeFields (m : Nat) : List (Nat × Nat) :=
  if m = 1 ∨ m = 2 then [(2, 1), (3, 8)]
  else if m = 3 then [(2, 1), (3, 1)]
  else if m = 4 ∨ m = 7 then [(2, 1), (3, 1), (4, 8)]
  else if m = 5 ∨ m = 8 then [(2, 1), (3, 8), (11, 1)]
  else [(2, 1), (3, 8), (11, 8)]

/-- The offsets of the register bytes of a mode, in encoding order (R55, R75). -/
def modeRegs (m : Nat) : List Nat :=
  if m = 3 ∨ m = 4 ∨ m = 7 then [2, 3]
  else if m = 5 ∨ m = 8 then [2, 11]
  else [2]

/-- The offsets of the base byte and of the 8 offset bytes of a memory mode (R55). -/
def modeMem (m : Nat) : Nat × Nat := if m = 4 ∨ m = 7 then (3, 4) else (2, 3)

/-- The effective address of a memory mode from the raw bytes (R100); 0 where the base byte names no
register, which the register check reports first. -/
def State.rawAddr (s : State) (m : Nat) : Int :=
  match (s.codeByte (modeMem m).1).bind Reg.ofByte with
  | none => 0
  | some rb => (s.x.get rb).toInt + (s.codeWord (modeMem m).2).toInt

/-- Items 6 to 8 of R148 for a known mode: the first operand field that leaves the code buffer, else the first
register byte out of range, else the address out of bounds. -/
def State.operandFault (s : State) (m : Nat) : Option FaultRecord :=
  match (modeFields m).find? fun p => (s.code.length : Int) < s.x.ip.toInt + p.1 + p.2 with
  | some p => some (.codeBufferOverrun (s.x.ip.toInt + p.1))
  | none =>
    match (modeRegs m).findSome? fun o => (s.codeByte o).filter fun r => 8 ≤ r.toNat with
    | some r => some (.registerIndexOutOfRange r)
    | none =>
      if 4 ≤ m ∧ (s.rawAddr m < 0 ∨ (s.cfg.memSize : Int) < s.rawAddr m + 8) then
        some (.memoryOutOfBounds (s.rawAddr m))
      else none

/-- The fault a `Running` step reports, in the priority order of R148 (items 1 to 5, then `operandFault`);
`none` where it reports none. -/
def State.firstFault (s : State) : Option FaultRecord :=
  match s.budgetFault with
  | some r => some r
  | none =>
    match s.codeByte 0 with
    | none => some (.codeBufferOverrun s.x.ip.toInt)
    | some op =>
      if op.toNat = 0 then none
      else if op.toNat ≠ 1 then some (.unknownOpcode op)
      else
        match s.codeByte 1 with
        | none => some (.codeBufferOverrun (s.x.ip.toInt + 1))
        | some m =>
          if m.toNat = 0 ∨ 10 ≤ m.toNat then some (.unknownMode m) else s.operandFault m.toNat

/-! ### Frames -/

/-- Everything but the two register files and memory is as before: the engine, the counter, the code buffer
and the configuration. -/
def SameRest (s t : State) : Prop :=
  t.engine = s.engine ∧ t.steps = s.steps ∧ t.code = s.code ∧ t.cfg = s.cfg

/-- The 8 bytes from `a` are the bytes of `w`, the least significant at `a` (R32, R33). -/
def HoldsWord (s : State) (a : Nat) (w : Word) : Prop :=
  ∀ k, k < 8 → Mem.readByte s.mem (a + k) = w.extractLsb' (8 * k) 8

/-- Every byte of memory outside the 8 bytes from `addr` is as before, and, where memory was in canonical form,
those 8 are the bytes of `w` (R32, R33). -/
def StoredWord (s t : State) (addr : Int) (w : Word) : Prop :=
  (Mem.wf s.mem = true → HoldsWord t addr.toNat w) ∧
    (∀ b : Nat, (b : Int) < addr ∨ addr + 8 ≤ b → Mem.readByte t.mem b = Mem.readByte s.mem b)

/-- `addr` is the first byte of an access inside the buffer (R34). -/
def State.InBounds (s : State) (addr : Int) : Prop := 0 ≤ addr ∧ addr + 8 ≤ s.cfg.memSize

/-- The address a store instruction stores to, where its register bytes are in range: the effective address
its meaning computes (R100); `none` for a form that stores nothing. -/
def State.storeAddr (s : State) (i : Instr) : Option Int :=
  match i with
  | .movST dst _ => (Reg.ofByte dst.base).map fun rb => s.ea rb dst.offset
  | .movSTI dst _ => (Reg.ofByte dst.base).map fun rb => s.ea rb dst.offset
  | .movFST dst _ => (Reg.ofByte dst.base).map fun rb => s.ea rb dst.offset
  | .movFSTI dst _ => (Reg.ofByte dst.base).map fun rb => s.ea rb dst.offset
  | .nop | .movRI _ _ | .movFI _ _ | .movRR _ _ | .movLD _ _ | .movFLD _ _ => none

/-- The word a store instruction stores, where its register bytes are in range; `none` for a form that stores
nothing (R102, R103, R105, R106). -/
def State.storeValue (s : State) (i : Instr) : Option Word :=
  match i with
  | .movST _ rs => (Reg.ofByte rs).map fun q => s.x.get q
  | .movSTI _ imm => some imm
  | .movFST _ rs => (Reg.ofByte rs).map fun q => s.f.get q
  | .movFSTI _ fimm => some fimm
  | .nop | .movRI _ _ | .movFI _ _ | .movRR _ _ | .movLD _ _ | .movFLD _ _ => none

/-- The memory-indirect operand of a form that has one. -/
def memOperand : Instr → Option MemIndirect
  | .movLD _ src => some src
  | .movFLD _ src => some src
  | .movST dst _ => some dst
  | .movSTI dst _ => some dst
  | .movFST dst _ => some dst
  | .movFSTI dst _ => some dst
  | .nop | .movRI _ _ | .movFI _ _ | .movRR _ _ => none

/-- The forms that store (modes 5, 6, 8 and 9). -/
def storesMemory : Instr → Bool
  | .movST _ _ | .movSTI _ _ | .movFST _ _ | .movFSTI _ _ => true
  | .nop | .movRI _ _ | .movFI _ _ | .movRR _ _ | .movLD _ _ | .movFLD _ _ => false

/-- The destination register byte of a form that writes a register, with its file (R53). -/
def destReg : Instr → Option (RegKind × Byte)
  | .movRI rd _ => some (.int, rd)
  | .movFI rd _ => some (.float, rd)
  | .movRR rd _ => some (.int, rd)
  | .movLD rd _ => some (.int, rd)
  | .movFLD rd _ => some (.float, rd)
  | .nop | .movST _ _ | .movSTI _ _ | .movFST _ _ | .movFSTI _ _ => none

/-- The instruction's encoding is these bytes, and in every state that is ready with them at `IP` a step runs
the instruction; in a `Running` state whose budget is spent the step reports that and nothing else; where the
code buffer ends inside the instruction the step reports `CodeBufferOverrun` at a cursor inside it, at most
where the buffer ends (the first three entries of every instruction rule: encoding and exceptions). The counter
advances without a budget too (notes/assumptions/16.md). -/
def RunsAs (i : Instr) (bs : List Byte) : Prop :=
  encode i = bs ∧
    (∀ s : State, s.Ready → s.CodeAtIp bs → step s = exec i s.countStep) ∧
    (∀ (s : State) (n : BitVec 64), s.engine = .running → s.cfg.maxSteps = some n → n ≤ s.steps →
      step s = .next (s.raise (.stepBudgetExceeded n))) ∧
    (∀ (s : State) (k : Nat), s.Ready → k < bs.length → s.CodeEndsAfter (bs.take k) →
      ∃ j, j ≤ k ∧
        step s = .next (s.countStep.raise (.codeBufferOverrun (s.x.ip.toInt + j))))

end Sys2Proof.Machine
end

