-- ==== Sys2Proof/Certificates/Slice0/Obligations.lean ====
section
/-!
DEFINITION. The statements about some_vm CORE, for the provers. Each docstring names the rule or section of spec/ it
formalises; where the spec marks a point as its own decision (D<n> of spec/92_eei_decisions.md), it says so.
-/

open Sys2Proof Sys2Proof.Machine

/-! ### The ten instruction rules: encoding, exceptions, effect and frame -/

/-- 41_nop.md R90: one byte `00`; the engine enters `Halted` and nothing else changes. That `IP` stays at the
NOP is the spec's decision D2. -/
def Obligations.NopHaltsInPlace : Prop :=
  RunsAs .nop [0x00#8] ∧ ∀ s : State, exec .nop s = .next { s with engine := .halted }

/-- 42_mov_register.md R92. In range: `x[rd]` gets the immediate, `IP` advances by 11 unless `rd = 0`, nothing
else changes. Out of range: `RegisterIndexOutOfRange(rd)` and nothing else. -/
def Obligations.MovRiLoadsImmediate : Prop :=
  ∀ (rd : Byte) (imm : Word),
    RunsAs (.movRI rd imm)
      [0x01#8, 0x01#8, rd, imm.extractLsb' 0 8, imm.extractLsb' 8 8, imm.extractLsb' 16 8,
       imm.extractLsb' 24 8, imm.extractLsb' 32 8, imm.extractLsb' 40 8, imm.extractLsb' 48 8,
       imm.extractLsb' 56 8] ∧
    (∀ (s : State) (p : Reg), rd.toNat = p.index →
      ∃ t, exec (.movRI rd imm) s = .next t ∧
        (∀ r, t.x.get r =
          if r = p then imm else if r = .ip then s.x.ip + 11#64 else s.x.get r) ∧
        t.f = s.f ∧ t.mem = s.mem ∧ SameRest s t) ∧
    (∀ s : State, 7 < rd.toNat →
      exec (.movRI rd imm) s = .next (s.raise (.registerIndexOutOfRange rd)))

/-- 42_mov_register.md R93 (mode number 2: decision D3). `f[rd]` gets all 64 bits; `IP` advances by 11 whatever
`rd` is; no other register changes. -/
def Obligations.MovFiLoadsPattern : Prop :=
  ∀ (rd : Byte) (fimm : Word),
    RunsAs (.movFI rd fimm)
      [0x01#8, 0x02#8, rd, fimm.extractLsb' 0 8, fimm.extractLsb' 8 8, fimm.extractLsb' 16 8,
       fimm.extractLsb' 24 8, fimm.extractLsb' 32 8, fimm.extractLsb' 40 8,
       fimm.extractLsb' 48 8, fimm.extractLsb' 56 8] ∧
    (∀ (s : State) (p : Reg), rd.toNat = p.index →
      ∃ t, exec (.movFI rd fimm) s = .next t ∧
        (∀ r, t.f.get r = if r = p then fimm else s.f.get r) ∧
        (∀ r, t.x.get r = if r = .ip then s.x.ip + 11#64 else s.x.get r) ∧
        t.mem = s.mem ∧ SameRest s t) ∧
    (∀ s : State, 7 < rd.toNat →
      exec (.movFI rd fimm) s = .next (s.raise (.registerIndexOutOfRange rd)))

/-- 42_mov_register.md R94. `x[rd]` gets the old `x[rs]`, `IP` advances by 4 unless `rd = 0`; a bad `rd` is
reported before a bad `rs`. -/
def Obligations.MovRrCopiesRegister : Prop :=
  ∀ rd rs : Byte,
    RunsAs (.movRR rd rs) [0x01#8, 0x03#8, rd, rs] ∧
    (∀ (s : State) (p q : Reg), rd.toNat = p.index → rs.toNat = q.index →
      ∃ t, exec (.movRR rd rs) s = .next t ∧
        (∀ r, t.x.get r =
          if r = p then s.x.get q else if r = .ip then s.x.ip + 4#64 else s.x.get r) ∧
        t.f = s.f ∧ t.mem = s.mem ∧ SameRest s t) ∧
    (∀ s : State, 7 < rd.toNat →
      exec (.movRR rd rs) s = .next (s.raise (.registerIndexOutOfRange rd))) ∧
    (∀ s : State, rd.toNat ≤ 7 → 7 < rs.toNat →
      exec (.movRR rd rs) s = .next (s.raise (.registerIndexOutOfRange rs)))

/-- 43_mov_memory.md R101 (mode number, operand layout and exact address: decisions D3, D4, D5, D8).
`x[rd]` gets the little-endian word at `EA(rb, offset)`, `IP` advances by 12 unless `rd = 0`, memory is
unchanged; the exceptions in the rule's order. -/
def Obligations.MovLdLoadsInteger : Prop :=
  ∀ (rd rb : Byte) (off : Word),
    RunsAs (.movLD rd { base := rb, offset := off })
      [0x01#8, 0x04#8, rd, rb, off.extractLsb' 0 8, off.extractLsb' 8 8, off.extractLsb' 16 8,
       off.extractLsb' 24 8, off.extractLsb' 32 8, off.extractLsb' 40 8, off.extractLsb' 48 8,
       off.extractLsb' 56 8] ∧
    (∀ (s : State) (p g : Reg), rd.toNat = p.index → rb.toNat = g.index →
      s.InBounds (s.ea g off) →
      ∃ t w, exec (.movLD rd { base := rb, offset := off }) s = .next t ∧
        HoldsWord s (s.ea g off).toNat w ∧
        (∀ r, t.x.get r =
          if r = p then w else if r = .ip then s.x.ip + 12#64 else s.x.get r) ∧
        t.f = s.f ∧ t.mem = s.mem ∧ SameRest s t) ∧
    (∀ s : State, 7 < rd.toNat →
      exec (.movLD rd { base := rb, offset := off }) s =
        .next (s.raise (.registerIndexOutOfRange rd))) ∧
    (∀ s : State, rd.toNat ≤ 7 → 7 < rb.toNat →
      exec (.movLD rd { base := rb, offset := off }) s =
        .next (s.raise (.registerIndexOutOfRange rb))) ∧
    (∀ (s : State) (g : Reg), rd.toNat ≤ 7 → rb.toNat = g.index → ¬s.InBounds (s.ea g off) →
      exec (.movLD rd { base := rb, offset := off }) s =
        .next (s.raise (.memoryOutOfBounds (s.ea g off))))

/-- 43_mov_memory.md R102 (decisions D3, D4, D5, D8). The 8 bytes at `EA(rb, offset)` get `x[rs]`, every other
byte of memory and every register but `IP` is unchanged; the exceptions in the rule's order. -/
def Obligations.MovStStoresInteger : Prop :=
  ∀ (rb rs : Byte) (off : Word),
    RunsAs (.movST { base := rb, offset := off } rs)
      [0x01#8, 0x05#8, rb, off.extractLsb' 0 8, off.extractLsb' 8 8, off.extractLsb' 16 8,
       off.extractLsb' 24 8, off.extractLsb' 32 8, off.extractLsb' 40 8, off.extractLsb' 48 8,
       off.extractLsb' 56 8, rs] ∧
    (∀ (s : State) (g q : Reg), rb.toNat = g.index → rs.toNat = q.index →
      s.InBounds (s.ea g off) →
      ∃ t, exec (.movST { base := rb, offset := off } rs) s = .next t ∧
        StoredWord s t (s.ea g off) (s.x.get q) ∧
        (∀ r, t.x.get r = if r = .ip then s.x.ip + 12#64 else s.x.get r) ∧
        t.f = s.f ∧ SameRest s t) ∧
    (∀ s : State, 7 < rb.toNat →
      exec (.movST { base := rb, offset := off } rs) s =
        .next (s.raise (.registerIndexOutOfRange rb))) ∧
    (∀ s : State, rb.toNat ≤ 7 → 7 < rs.toNat →
      exec (.movST { base := rb, offset := off } rs) s =
        .next (s.raise (.registerIndexOutOfRange rs))) ∧
    (∀ (s : State) (g : Reg), rb.toNat = g.index → rs.toNat ≤ 7 → ¬s.InBounds (s.ea g off) →
      exec (.movST { base := rb, offset := off } rs) s =
        .next (s.raise (.memoryOutOfBounds (s.ea g off))))

/-- 43_mov_memory.md R103 (decisions D3, D4, D5, D8). The 8 bytes at `EA(rb, offset)` get the immediate. -/
def Obligations.MovStiStoresImmediate : Prop :=
  ∀ (rb : Byte) (off imm : Word),
    RunsAs (.movSTI { base := rb, offset := off } imm)
      [0x01#8, 0x06#8, rb, off.extractLsb' 0 8, off.extractLsb' 8 8, off.extractLsb' 16 8,
       off.extractLsb' 24 8, off.extractLsb' 32 8, off.extractLsb' 40 8, off.extractLsb' 48 8,
       off.extractLsb' 56 8, imm.extractLsb' 0 8, imm.extractLsb' 8 8, imm.extractLsb' 16 8,
       imm.extractLsb' 24 8, imm.extractLsb' 32 8, imm.extractLsb' 40 8, imm.extractLsb' 48 8,
       imm.extractLsb' 56 8] ∧
    (∀ (s : State) (g : Reg), rb.toNat = g.index → s.InBounds (s.ea g off) →
      ∃ t, exec (.movSTI { base := rb, offset := off } imm) s = .next t ∧
        StoredWord s t (s.ea g off) imm ∧
        (∀ r, t.x.get r = if r = .ip then s.x.ip + 19#64 else s.x.get r) ∧
        t.f = s.f ∧ SameRest s t) ∧
    (∀ s : State, 7 < rb.toNat →
      exec (.movSTI { base := rb, offset := off } imm) s =
        .next (s.raise (.registerIndexOutOfRange rb))) ∧
    (∀ (s : State) (g : Reg), rb.toNat = g.index → ¬s.InBounds (s.ea g off) →
      exec (.movSTI { base := rb, offset := off } imm) s =
        .next (s.raise (.memoryOutOfBounds (s.ea g off))))

/-- 43_mov_memory.md R104 (decisions D3, D4, D5, D8, D21). `f[rd]` gets all 64 bits at `EA(rb, offset)`; `rd = 0`
writes `f[0]` and is no jump. -/
def Obligations.MovFldLoadsPattern : Prop :=
  ∀ (rd rb : Byte) (off : Word),
    RunsAs (.movFLD rd { base := rb, offset := off })
      [0x01#8, 0x07#8, rd, rb, off.extractLsb' 0 8, off.extractLsb' 8 8, off.extractLsb' 16 8,
       off.extractLsb' 24 8, off.extractLsb' 32 8, off.extractLsb' 40 8, off.extractLsb' 48 8,
       off.extractLsb' 56 8] ∧
    (∀ (s : State) (p g : Reg), rd.toNat = p.index → rb.toNat = g.index →
      s.InBounds (s.ea g off) →
      ∃ t w, exec (.movFLD rd { base := rb, offset := off }) s = .next t ∧
        HoldsWord s (s.ea g off).toNat w ∧
        (∀ r, t.f.get r = if r = p then w else s.f.get r) ∧
        (∀ r, t.x.get r = if r = .ip then s.x.ip + 12#64 else s.x.get r) ∧
        t.mem = s.mem ∧ SameRest s t) ∧
    (∀ s : State, 7 < rd.toNat →
      exec (.movFLD rd { base := rb, offset := off }) s =
        .next (s.raise (.registerIndexOutOfRange rd))) ∧
    (∀ s : State, rd.toNat ≤ 7 → 7 < rb.toNat →
      exec (.movFLD rd { base := rb, offset := off }) s =
        .next (s.raise (.registerIndexOutOfRange rb))) ∧
    (∀ (s : State) (g : Reg), rd.toNat ≤ 7 → rb.toNat = g.index → ¬s.InBounds (s.ea g off) →
      exec (.movFLD rd { base := rb, offset := off }) s =
        .next (s.raise (.memoryOutOfBounds (s.ea g off))))

/-- 43_mov_memory.md R105 (decisions D3, D4, D5, D8, D21). The 8 bytes at `EA(rb, offset)` get `f[rs]`. -/
def Obligations.MovFstStoresPattern : Prop :=
  ∀ (rb rs : Byte) (off : Word),
    RunsAs (.movFST { base := rb, offset := off } rs)
      [0x01#8, 0x08#8, rb, off.extractLsb' 0 8, off.extractLsb' 8 8, off.extractLsb' 16 8,
       off.extractLsb' 24 8, off.extractLsb' 32 8, off.extractLsb' 40 8, off.extractLsb' 48 8,
       off.extractLsb' 56 8, rs] ∧
    (∀ (s : State) (g q : Reg), rb.toNat = g.index → rs.toNat = q.index →
      s.InBounds (s.ea g off) →
      ∃ t, exec (.movFST { base := rb, offset := off } rs) s = .next t ∧
        StoredWord s t (s.ea g off) (s.f.get q) ∧
        (∀ r, t.x.get r = if r = .ip then s.x.ip + 12#64 else s.x.get r) ∧
        t.f = s.f ∧ SameRest s t) ∧
    (∀ s : State, 7 < rb.toNat →
      exec (.movFST { base := rb, offset := off } rs) s =
        .next (s.raise (.registerIndexOutOfRange rb))) ∧
    (∀ s : State, rb.toNat ≤ 7 → 7 < rs.toNat →
      exec (.movFST { base := rb, offset := off } rs) s =
        .next (s.raise (.registerIndexOutOfRange rs))) ∧
    (∀ (s : State) (g : Reg), rb.toNat = g.index → rs.toNat ≤ 7 → ¬s.InBounds (s.ea g off) →
      exec (.movFST { base := rb, offset := off } rs) s =
        .next (s.raise (.memoryOutOfBounds (s.ea g off))))

/-- 43_mov_memory.md R106 (decisions D3, D4, D5, D8, D21). The 8 bytes at `EA(rb, offset)` get the pattern; the effect
is that of MOV.STI with the same operand bytes. -/
def Obligations.MovFstiStoresPattern : Prop :=
  ∀ (rb : Byte) (off fimm : Word),
    RunsAs (.movFSTI { base := rb, offset := off } fimm)
      [0x01#8, 0x09#8, rb, off.extractLsb' 0 8, off.extractLsb' 8 8, off.extractLsb' 16 8,
       off.extractLsb' 24 8, off.extractLsb' 32 8, off.extractLsb' 40 8, off.extractLsb' 48 8,
       off.extractLsb' 56 8, fimm.extractLsb' 0 8, fimm.extractLsb' 8 8, fimm.extractLsb' 16 8,
       fimm.extractLsb' 24 8, fimm.extractLsb' 32 8, fimm.extractLsb' 40 8,
       fimm.extractLsb' 48 8, fimm.extractLsb' 56 8] ∧
    (∀ (s : State) (g : Reg), rb.toNat = g.index → s.InBounds (s.ea g off) →
      ∃ t, exec (.movFSTI { base := rb, offset := off } fimm) s = .next t ∧
        StoredWord s t (s.ea g off) fimm ∧
        (∀ r, t.x.get r = if r = .ip then s.x.ip + 19#64 else s.x.get r) ∧
        t.f = s.f ∧ SameRest s t) ∧
    (∀ s : State, 7 < rb.toNat →
      exec (.movFSTI { base := rb, offset := off } fimm) s =
        .next (s.raise (.registerIndexOutOfRange rb))) ∧
    (∀ (s : State) (g : Reg), rb.toNat = g.index → ¬s.InBounds (s.ea g off) →
      exec (.movFSTI { base := rb, offset := off } fimm) s =
        .next (s.raise (.memoryOutOfBounds (s.ea g off)))) ∧
    (∀ s : State, exec (.movFSTI { base := rb, offset := off } fimm) s =
      exec (.movSTI { base := rb, offset := off } fimm) s)

/-! ### Properties of the instruction families -/

/-- 42_mov_register.md R97: a form of modes 1 to 3 either writes exactly the register its first operand names,
and `IP`, or changes no register; it reads and writes no memory, never reports `MemoryOutOfBounds`, depends on
no configuration value, and where it faults every register and memory are as before. -/
def Obligations.RegisterFormsTouchOneRegister : Prop :=
  ∀ (i : Instr) (s : State) (k : RegKind) (rd : Byte), s.engine = .running → memOperand i = none →
    destReg i = some (k, rd) →
    ∃ t, exec i s = .next t ∧
      (t.engine = .running ∧
          (∃ p : Reg, rd.toNat = p.index ∧
            ∀ k' r, (k', r) ≠ (k, p) → (k', r) ≠ (.int, .ip) → t.getReg k' r = s.getReg k' r) ∨
        (∃ r, t.engine = .faulted (.registerIndexOutOfRange r)) ∧ t.x = s.x ∧ t.f = s.f) ∧
      t.mem = s.mem ∧
      ∀ (m : Mem) (c : Configuration),
        exec i { s with mem := m, cfg := c } = .next { t with mem := m, cfg := c }

/-- 43_mov_memory.md R107 item 4: a word stored by any store form and loaded back from the same address by
either load form is the word stored, whatever the two types. -/
def Obligations.LoadAfterStoreReturnsStoredBits : Prop :=
  ∀ (s t : State) (i : Instr) (addr : Int) (w : Word),
    Mem.wf s.mem = true → s.storeAddr i = some addr → s.storeValue i = some w →
    s.InBounds addr → exec i s = .next t →
    ∀ (rd rb : Byte) (off : Word) (p g : Reg),
      rd.toNat = p.index → rb.toNat = g.index → t.ea g off = addr →
      (∃ u, exec (.movLD rd { base := rb, offset := off }) t = .next u ∧ u.x.get p = w) ∧
        (∃ u, exec (.movFLD rd { base := rb, offset := off }) t = .next u ∧ u.f.get p = w)

/-- 20_memory.md R43: a form that does not store leaves memory as it is, and a form that stores does not read
memory. Whatever memory holds, its effect on everything else is the same; where it stores, the 8 bytes it
stores are those of its register or immediate; where it faults, it leaves memory as it was. -/
def Obligations.NoFormReadsAndWritesMemory : Prop :=
  ∀ (i : Instr) (s : State),
    (storesMemory i = false → ∃ t, exec i s = .next t ∧ t.mem = s.mem) ∧
      (storesMemory i = true → ∀ m : Mem, ∃ t t', exec i s = .next t ∧
        exec i { s with mem := m } = .next t' ∧ { t' with mem := t.mem } = t ∧
        (∀ addr w, s.storeAddr i = some addr → s.storeValue i = some w → s.InBounds addr →
          StoredWord s t addr w ∧ StoredWord { s with mem := m } t' addr w) ∧
        ((¬∃ addr w, s.storeAddr i = some addr ∧ s.storeValue i = some w ∧ s.InBounds addr) →
          t.mem = s.mem ∧ t'.mem = m))

/-- The frame of every instruction (10_state.md R17, 40_execution_cycle.md R76, R77, 43_mov_memory.md R107): only its
destination register, `IP`, and the 8 bytes at the address it stores to can change; the counter, the code
buffer and the configuration never do; only NOP and a fault change the engine. -/
def Obligations.InstructionFrame : Prop :=
  ∀ (i : Instr) (s t : State), exec i s = .next t →
    (∀ k r, (k, r) ≠ (.int, .ip) → destReg i ≠ some (k, BitVec.ofNat 8 r.index) →
      t.getReg k r = s.getReg k r) ∧
    (∀ b : Nat, (∀ addr, s.storeAddr i = some addr → (b : Int) < addr ∨ addr + 8 ≤ b) →
      Mem.readByte t.mem b = Mem.readByte s.mem b) ∧
    t.steps = s.steps ∧ t.code = s.code ∧ t.cfg = s.cfg ∧
    (t.engine = s.engine ∨ (i = .nop ∧ t.engine = .halted) ∨ ∃ r, t.engine = .faulted r)

/-- 60_exceptions.md R153 (the instruction's own part): an instruction reports only a register byte of its own
that is out of range, or its own effective address out of bounds. -/
def Obligations.InstructionsFaultOnlyOnTheirOperands : Prop :=
  ∀ (i : Instr) (s t : State) (r : FaultRecord), s.engine = .running → exec i s = .next t →
    t.engine = .faulted r →
    (∃ k b, (k, b) ∈ i.regBytes ∧ 7 < b.toNat ∧ r = .registerIndexOutOfRange b) ∨
      (∃ m rb, memOperand i = some m ∧ m.base.toNat = rb.index ∧
        ¬s.InBounds (s.ea rb m.offset) ∧ r = .memoryOutOfBounds (s.ea rb m.offset))

/-- 43_mov_memory.md R100, 20_memory.md R35 (decision D8): the effective address is the exact sum, and one outside
the `i64` range is out of bounds for every allowed `MEM_SIZE`. -/
def Obligations.EffectiveAddressNeverWraps : Prop :=
  ∀ (s : State) (rb : Reg) (off : Word),
    s.ea rb off = (s.x.get rb).toInt + off.toInt ∧
      -2 ^ 64 ≤ s.ea rb off ∧ s.ea rb off ≤ 2 ^ 64 - 2 ∧
      (s.cfg.memSize ≤ Config.maxSize → (s.ea rb off < -2 ^ 63 ∨ 2 ^ 63 - 1 < s.ea rb off) →
        ¬s.InBounds (s.ea rb off))

/-- 20_memory.md R34: the check is exactly `addr < 0 or addr + 8 > MEM_SIZE` on exact integers; the access is
refused or done whole; with the default `MEM_SIZE` 65528 is the last valid address; below 8 bytes none is; and
a refused store writes nothing. -/
def Obligations.BoundsCheckIsExact : Prop :=
  (∀ (s : State) (addr : Int), addr < 0 ∨ addr + 8 > s.cfg.memSize →
    s.memRead addr = .error (.memoryOutOfBounds addr) ∧
      ∀ w, s.memWrite addr w = .error (.memoryOutOfBounds addr)) ∧
  (∀ (s : State) (addr : Int), ¬(addr < 0 ∨ addr + 8 > s.cfg.memSize) →
    (∃ w, s.memRead addr = .ok w ∧ HoldsWord s addr.toNat w) ∧
      ∀ w, ∃ t, s.memWrite addr w = .ok t ∧ StoredWord s t addr w) ∧
  (∀ s : State, s.cfg.memSize = 65536 → s.InBounds 65528 ∧ ¬s.InBounds 65529) ∧
  (∀ (s : State) (addr : Int), s.cfg.memSize < 8 → ¬s.InBounds addr) ∧
  (∀ (i : Instr) (s t : State) (addr : Int), s.storeAddr i = some addr → ¬s.InBounds addr →
    exec i s = .next t → t.mem = s.mem)

/-- 42_mov_register.md R95 (decision D6): in the three forms with an integer destination, `rd = 0` leaves `IP` at the
value written, unchecked; and a step at a value outside the code buffer overruns there and keeps it. -/
def Obligations.WriteToIpIsAJump : Prop :=
  (∀ (s : State) (imm : Word), ∃ t, exec (.movRI 0#8 imm) s = .next t ∧ t.x.ip = imm) ∧
  (∀ (s : State) (rs : Byte) (q : Reg), rs.toNat = q.index →
    ∃ t, exec (.movRR 0#8 rs) s = .next t ∧ t.x.ip = s.x.get q) ∧
  (∀ (s : State) (rb : Byte) (off : Word) (g : Reg), rb.toNat = g.index →
    s.InBounds (s.ea g off) →
    ∃ t, exec (.movLD 0#8 { base := rb, offset := off }) s = .next t ∧
      HoldsWord s (s.ea g off).toNat t.x.ip) ∧
  (∀ s : State, s.Ready → s.x.ip.toInt < 0 ∨ (s.code.length : Int) ≤ s.x.ip.toInt →
    ∃ t, step s = .next t ∧ t.engine = .faulted (.codeBufferOverrun s.x.ip.toInt) ∧
      t.x = s.x)

/-- 42_mov_register.md R96 (decision D7): a read of `IP` as source or base gives the offset of the executing
instruction. -/
def Obligations.ReadOfIpGivesOwnOffset : Prop :=
  (∀ (s : State) (rd : Byte) (p : Reg), rd.toNat = p.index →
    ∃ t, exec (.movRR rd 0#8) s = .next t ∧ t.x.get p = s.x.ip) ∧
  (∀ (s : State) (rb : Byte) (off : Word) (g : Reg), Mem.wf s.mem = true →
    rb.toNat = g.index → s.InBounds (s.ea g off) →
    ∃ t, exec (.movST { base := rb, offset := off } 0#8) s = .next t ∧
      HoldsWord t (s.ea g off).toNat s.x.ip) ∧
  (∀ (s : State) (off : Word), s.ea .ip off = s.x.ip.toInt + off.toInt)

/-! ### Registers -/

/-- 10_state.md R10, R12, R26 (the zero of a float register is the all-zero pattern: decision D21,
notes/assumptions/11.md): eight registers with the indices of their names; a read gives the value last written,
whole, or the reset value 0; a write changes no other register of either file; an access with an index outside
0 to 7 is the fault and never reaches a file. -/
def Obligations.RegistersHoldLastWrite : Prop :=
  (∀ (s : State) (k k' : RegKind) (r r' : Reg) (w : Word),
    (s.setReg k r w).getReg k' r' = if k' = k ∧ r' = r then w else s.getReg k' r') ∧
  (∀ (k : RegKind) (r : Reg), State.reset.getReg k r = 0#64) ∧
  [Reg.ip, Reg.sp, Reg.bp, Reg.a, Reg.b, Reg.c, Reg.d, Reg.e].map Reg.index =
    [0, 1, 2, 3, 4, 5, 6, 7] ∧
  (∀ (b : Byte) (access : Reg → Except FaultRecord Effect), 7 < b.toNat →
    withReg b access = .error (.registerIndexOutOfRange b))

/-- 30_encoding.md R58: a register field is compared whole with 0 to 7; 8 to 255 raises; no bits are ignored. A
memory-indirect offset is added to the base register's value, not to its index. -/
def Obligations.RegisterFieldComparedWhole : Prop :=
  ∀ b : Byte, (∀ r : Reg, validate b = .ok r ↔ b.toNat = r.index) ∧
    (validate b = .error (.registerIndexOutOfRange b) ↔ 8 ≤ b.toNat) ∧
    ((∃ r, validate b = .ok r) ∨ validate b = .error (.registerIndexOutOfRange b)) ∧
    ∀ (s : State) (r : Reg) (off : Word), validate b = .ok r →
      s.ea r off = (s.getReg .int r).toInt + off.toInt

/-! ### Encoding and decoding -/

/-- 30_encoding.md R66 (its converse half is marked as derived there): any operand sequence is recovered from its
encoding; every instruction, out-of-range register bytes included, is recovered from its encoding at any
offset with its length; and the bytes of every decoded instruction are its encoding. -/
def Obligations.DecodeInvertsEncode : Prop :=
  (∀ (ks : List OperandKind) (vs : Operands ks) (pre post : List Byte),
    decodeOperands (pre ++ encodeOperands ks vs ++ post) ks pre.length =
      .ok (vs, pre.length + (encodeOperands ks vs).length)) ∧
  (∀ (i : Instr) (pre post : List Byte),
    decodeAt (pre ++ encode i ++ post) pre.length = .ok (i, pre.length + i.length)) ∧
  (∀ (code : List Byte) (ip0 cur : Int) (i : Instr), decodeAt code ip0 = .ok (i, cur) →
    CodeAt code ip0 (encode i) ∧ cur = ip0 + (encode i).length)

/-- 30_encoding.md R55: the byte layout and the length of each of the six formats' forms. -/
def Obligations.FormatsByteByByte : Prop :=
  (∀ i : Instr, (encode i).length = i.length) ∧
  [Form.nop, .movRI, .movFI, .movRR, .movLD, .movST, .movSTI, .movFLD, .movFST, .movFSTI].map
      Form.length = [1, 11, 11, 4, 12, 12, 19, 12, 12, 19] ∧
  encode .nop = [0x00#8] ∧
  (∀ (rd : Byte) (w : Word), encode (.movRI rd w) = [0x01#8, 0x01#8, rd] ++ bytes64 w ∧
    encode (.movFI rd w) = [0x01#8, 0x02#8, rd] ++ bytes64 w) ∧
  (∀ rd rs : Byte, encode (.movRR rd rs) = [0x01#8, 0x03#8, rd, rs]) ∧
  (∀ (rd rb : Byte) (off : Word),
    encode (.movLD rd ⟨rb, off⟩) = [0x01#8, 0x04#8, rd, rb] ++ bytes64 off ∧
      encode (.movFLD rd ⟨rb, off⟩) = [0x01#8, 0x07#8, rd, rb] ++ bytes64 off) ∧
  (∀ (rb rs : Byte) (off : Word),
    encode (.movST ⟨rb, off⟩ rs) = [0x01#8, 0x05#8, rb] ++ bytes64 off ++ [rs] ∧
      encode (.movFST ⟨rb, off⟩ rs) = [0x01#8, 0x08#8, rb] ++ bytes64 off ++ [rs]) ∧
  (∀ (rb : Byte) (off w : Word),
    encode (.movSTI ⟨rb, off⟩ w) = [0x01#8, 0x06#8, rb] ++ bytes64 off ++ bytes64 w ∧
      encode (.movFSTI ⟨rb, off⟩ w) = [0x01#8, 0x09#8, rb] ++ bytes64 off ++ bytes64 w)

/-- 30_encoding.md R56, R55 (the lengths per mode are marked as derived there and rest on decisions D3 and D5,
notes/assumptions/6.md): the first one or two bytes alone fix the length, wherever decoding starts. -/
def Obligations.FirstBytesFixTheLength : Prop :=
  ∀ (code : List Byte) (ip0 cur : Int) (i : Instr), decodeAt code ip0 = .ok (i, cur) →
    (i = .nop ∧ CodeAt code ip0 [0x00#8] ∧ cur = ip0 + 1) ∨
      ∃ m : Byte, CodeAt code ip0 [0x01#8, m] ∧
        (m.toNat = 1 ∧ cur = ip0 + 11 ∨ m.toNat = 2 ∧ cur = ip0 + 11 ∨
          m.toNat = 3 ∧ cur = ip0 + 4 ∨ m.toNat = 4 ∧ cur = ip0 + 12 ∨
          m.toNat = 5 ∧ cur = ip0 + 12 ∨ m.toNat = 6 ∧ cur = ip0 + 19 ∨
          m.toNat = 7 ∧ cur = ip0 + 12 ∨ m.toNat = 8 ∧ cur = ip0 + 12 ∨
          m.toNat = 9 ∧ cur = ip0 + 19)

/-- 30_encoding.md R65 and opcode_table.json: no two rows overlap, and the dispatcher selects the form of the row
that `b[0] + 256*b[1]` matches, or rejects by the name R65 gives. NOP needs no second byte. -/
def Obligations.OpcodeTableSelectsTheForm : Prop :=
  (∀ (v : BitVec 16) (r r' : OpcodeRow), r ∈ opcodeTable → r' ∈ opcodeTable →
    v &&& r.mask = r.pattern → v &&& r'.mask = r'.pattern → r = r') ∧
  (∀ (b0 b1 : Byte) (rest : List Byte),
    match selectRow (b1 ++ b0) with
    | some row => row.length = row.form.length ∧
        dispatchForm (b0 :: b1 :: rest) 0 = .ok (row.form, row.form.header.length)
    | none => dispatchForm (b0 :: b1 :: rest) 0 =
        .error (if b0 = 0x01#8 then .unknownMode b1 else .unknownOpcode b0)) ∧
  dispatchForm [0x00#8] 0 = .ok (.nop, 1)

/-- Words written out from 30_encoding.md and 95_test_vectors.md decode to the instruction they stand for (one per
family; E1, ST1, FSTI1 and NOP). -/
def Obligations.SampleWordsDecode : Prop :=
  decodeAt [0x00#8] 0 = .ok (.nop, 1) ∧
  decodeAt [0x01#8, 0x01#8, 0x03#8, 0x2A#8, 0#8, 0#8, 0#8, 0#8, 0#8, 0#8, 0#8] 0 =
    .ok (.movRI 3#8 42#64, 11) ∧
  decodeAt [0x01#8, 0x03#8, 0x04#8, 0x03#8] 0 = .ok (.movRR 4#8 3#8, 4) ∧
  decodeAt [0x01#8, 0x05#8, 0x03#8, 0x10#8, 0#8, 0#8, 0#8, 0#8, 0#8, 0#8, 0#8, 0x04#8] 0 =
    .ok (.movST ⟨3#8, 16#64⟩ 4#8, 12) ∧
  decodeAt [0x01#8, 0x09#8, 0x06#8, 0#8, 0#8, 0#8, 0#8, 0#8, 0#8, 0#8, 0#8,
      0#8, 0#8, 0#8, 0#8, 0#8, 0#8, 0#8, 0x80#8] 0 =
    .ok (.movFSTI ⟨6#8, 0#64⟩ 0x8000000000000000#64, 19)

/-- 20_memory.md R38 (the negative cursor: decision D20): a code read is all or nothing, on exact integers, and
gives the bytes of the code buffer at its cursor. -/
def Obligations.CodeReadAllOrNothing : Prop :=
  ∀ (code : List Byte) (off : Int) (n : Nat),
    (off < 0 ∨ off + n > code.length → codeRead code off n = .error (.codeBufferOverrun off)) ∧
    (¬(off < 0 ∨ off + n > code.length) →
      ∃ bs, codeRead code off n = .ok bs ∧ bs.length = n ∧
        ∀ k, k < n → bs[k]? = code[off.toNat + k]?)

/-- 30_encoding.md R59, 60_exceptions.md R141: an opcode byte 0x02 to 0xFF is `UnknownOpcode` with that byte, after
it alone is read (the code buffer may end there), and no register and no memory byte changes. -/
def Obligations.UnknownOpcodeFaults : Prop :=
  ∀ (s : State) (op : Byte), s.Ready → s.CodeAtIp [op] → 2 ≤ op.toNat →
    ∃ t, step s = .next t ∧ t.engine = .faulted (.unknownOpcode op) ∧
      t.x = s.x ∧ t.f = s.f ∧ t.mem = s.mem ∧ t.code = s.code ∧ t.cfg = s.cfg

/-- 30_encoding.md R60, 60_exceptions.md R142 (that 0 is no mode and 8 and 9 are: decision D3): a mode byte outside
1 to 9 after opcode 0x01 is `UnknownMode` with that byte, no operand byte read. -/
def Obligations.UnknownModeFaults : Prop :=
  ∀ (s : State) (m : Byte), s.Ready → s.CodeAtIp [0x01#8, m] → m.toNat = 0 ∨ 10 ≤ m.toNat →
    ∃ t, step s = .next t ∧ t.engine = .faulted (.unknownMode m) ∧
      t.x = s.x ∧ t.f = s.f ∧ t.mem = s.mem ∧ t.code = s.code ∧ t.cfg = s.cfg

/-! ### The step -/

/-- 40_execution_cycle.md R70: where the engine is `Running`, the budget is not spent and the bytes at `IP` decode
to an instruction, a step is that instruction's meaning after the counter has been advanced. The counter's value
past `2^64 - 1` is the model's free value (notes/assumptions/5.md), and that it advances without a budget too is the
model's reading of R70 against R72 (notes/assumptions/16.md). -/
def Obligations.StepRunsDecodedInstruction : Prop :=
  ∀ (s : State) (i : Instr) (cur : Int), s.Ready → decodeAt s.code s.x.ip.toInt = .ok (i, cur) →
    step s = exec i
      { s with
        steps := if s.steps = BitVec.allOnes 64 then Config.stepsOverflow s.steps
          else s.steps + 1#64 }

/-- 50_interfaces.md R131, 40_execution_cycle.md R70: every state has a next state; the model's step never stops. -/
def Obligations.EveryStateSteps : Prop := ∀ s : State, ∃ t, step s = .next t

/-- 40_execution_cycle.md R79 (decision D27): a step in `Halted` or `Faulted` changes nothing. -/
def Obligations.TerminalStatesAbsorb : Prop :=
  ∀ (s : State) (n : Nat), s.engine ≠ .running → runSteps n s = .next s

/-- 60_exceptions.md R152, 40_execution_cycle.md R79 (decision D27), 70_reset_and_hazards.md R174 (decision D24); the
decisions by notes/assumptions/6.md, the Lifecycle by notes/assumptions/9.md: nothing leaves `Faulted` but
destruction. Any number of steps leaves it as it is, an execution request is refused, and a host move that is
taken leaves the instance as it is or destroys it. -/
def Obligations.NoReturnFromAFault : Prop :=
  ∀ (s : State) (r : FaultRecord), s.engine = .faulted r →
    (∀ n, runSteps n s = .next s) ∧
    requestExecution (.atRest s) = .error .instanceFaulted ∧
    (∀ a l' ans, hostMove (.atRest s) a = .ok (l', ans) →
      l' = .atRest s ∨ (a = .destroy ∧ l' = .noInstance))

/-- 60_exceptions.md R146, R150 (the `info`: decision D17), 40_execution_cycle.md R72 (the check first in the step, the
counter left alone: decision D15), the decisions by notes/assumptions/6.md: a `Running` step whose budget is
spent reports `StepBudgetExceeded(n)` before the fetch, whatever the code holds, and changes nothing else, `IP`
and the counter included; no other step reports it, and without a budget none does. -/
def Obligations.BudgetSpentFaultsBeforeFetch : Prop :=
  (∀ (s : State) (n : BitVec 64), s.engine = .running → s.cfg.maxSteps = some n → n ≤ s.steps →
    step s = .next { s with engine := .faulted (.stepBudgetExceeded n) }) ∧
  (∀ (s t : State) (n : BitVec 64), s.engine = .running → step s = .next t →
    t.engine = .faulted (.stepBudgetExceeded n) → s.cfg.maxSteps = some n ∧ n ≤ s.steps)

/-- 10_state.md R20, 40_execution_cycle.md R72 (decision D15): the counter advances by exactly one in every step
that passes the budget check, never past the budget, and stays in every other step. At `2^64 - 1`, without a
budget, its next value is the model's free value (notes/assumptions/5.md). That it advances without a budget too is
the model's reading of R70 against R72 (notes/assumptions/16.md). -/
def Obligations.CounterCountsStepsBegun : Prop :=
  ∀ s t : State, step s = .next t →
    (s.Ready → t.steps = if s.steps = BitVec.allOnes 64 then Config.stepsOverflow s.steps
      else s.steps + 1#64) ∧
    (s.Ready → ∀ n, s.cfg.maxSteps = some n →
      t.steps.toNat = s.steps.toNat + 1 ∧ t.steps ≤ n) ∧
    (¬s.Ready → t.steps = s.steps)

/-- 10_state.md R15 (decision D2): after a step `IP` is unchanged where the engine halts or faults, and where a MOV
completes without an integer destination 0 it is exactly `ip0 + L`, with no overflow. -/
def Obligations.IpAfterAStep : Prop :=
  ∀ s t : State, s.code.length ≤ Config.maxSize → s.engine = .running → step s = .next t →
    (t.engine ≠ .running → t.x.ip = s.x.ip) ∧
    (t.engine = .running → ∃ i cur, decodeAt s.code s.x.ip.toInt = .ok (i, cur) ∧ i ≠ .nop ∧
      (destReg i ≠ some (.int, 0#8) → t.x.ip.toInt = s.x.ip.toInt + i.length))

/-- 60_exceptions.md R148 (the places of items 1, 6, 7 and 8: decision D16; the addresses and cursors: decision D17):
a `Running` step ends in `Faulted` with exactly the first fault of the priority list, read off the raw bytes, and
where the list is empty it halts on opcode 0 and goes on otherwise. -/
def Obligations.StepReportsTheFirstFault : Prop :=
  ∀ s : State, s.engine = .running →
    ∃ t, step s = .next t ∧
      t.engine =
        match s.firstFault with
        | some r => .faulted r
        | none => if s.codeByte 0 = some 0#8 then .halted else .running

/-- 60_exceptions.md R151: a run that ends in `Faulted` came through `Running` states to the faulting step, and that
step left every register, all of memory, the code and the configuration as they were. -/
def Obligations.FaultsArePrecise : Prop :=
  ∀ (n : Nat) (s t : State) (r : FaultRecord), s.engine = .running → runSteps n s = .next t →
    t.engine = .faulted r →
    ∃ m u, m < n ∧ runSteps m s = .next u ∧ u.engine = .running ∧ step u = .next t ∧
      t.x = u.x ∧ t.f = u.f ∧ t.mem = u.mem ∧ t.code = u.code ∧ t.cfg = u.cfg

/-- 20_memory.md R44: no step changes the code buffer, so what is fetched at an offset never changes; and no
instruction's effect on the rest depends on the code buffer, so no program reads its own bytes as data. -/
def Obligations.CodeIsReadOnlyAndUnreadable : Prop :=
  (∀ s t : State, step s = .next t → t.code = s.code) ∧
  (∀ (i : Instr) (s : State) (c : List Byte), ∃ t, exec i s = .next t ∧
    exec i { s with code := c } = .next { t with code := c })

/-- 10_state.md R21, 20_memory.md R31 (regions not enforced: decision D10): no step changes the configuration, and
`DATA_SIZE` and `STACK_SIZE` influence no step. -/
def Obligations.RegionSizesInfluenceNothing : Prop :=
  ∀ (s t : State) (ds : BitVec 32) (ss : Nat), step s = .next t →
    t.cfg = s.cfg ∧
      step { s with cfg := { s.cfg with dataSize := ds, stackSize := ss } } =
        .next { t with cfg := { t.cfg with dataSize := ds, stackSize := ss } }

/-- The invariant is kept by every step: canonical memory inside the buffer, the sizes' bounds, the layout
invariant, the counter within the budget, and a fault record the spec can record (20_memory.md, 60_exceptions.md
R150, 10_state.md R20). -/
def Obligations.StepKeepsInvariant : Prop :=
  ∀ s t : State, s.Inv → step s = .next t → t.Inv

/-- The invariant holds after reset. -/
def Obligations.ResetMeetsInvariant : Prop := State.reset.Inv

/-- 40_execution_cycle.md R72, R78 (decision D15): with a budget `n`, every execution ends, within `n + 1` steps, in
`Halted` or `Faulted`. -/
def Obligations.BudgetEndsEveryExecution : Prop :=
  ∀ (s : State) (n : BitVec 64), s.cfg.maxSteps = some n →
    ∃ k t, k ≤ n.toNat + 1 ∧ runSteps k s.requestReset = .next t ∧ t.engine ≠ .running

/-! ### Reset, construction and the host protocol -/

/-- The model's reset state is what construction from the image `00 00 00 00` with the default `MEM_SIZE` gives
(70_reset_and_hazards.md R172, 10_state.md R26); the OPEN parameters' values are the model's choice
(notes/assumptions/1.md to 4.md). An execution request changes nothing in it. -/
def Obligations.ResetIsConstructionOfTheEmptyStream : Prop :=
  construct { memSize := 65536, stackSize := 0, maxSteps := none, memInit := [],
              image := [0#8, 0#8, 0#8, 0#8] } = .ok State.reset ∧
    State.reset.requestReset = State.reset

/-- 70_reset_and_hazards.md R171 (the short image and the names: decision D19): the two checks, in order, on exact
integers, and no other. -/
def Obligations.ConstructionChecksInOrder : Prop :=
  ∀ p : Params,
    (p.image.length < 4 → construct p = .error .headerTruncated) ∧
    (4 ≤ p.image.length →
      (le32 (p.image.take 4)).toNat + p.stackSize > p.memSize →
      construct p = .error .layoutInvariant) ∧
    (4 ≤ p.image.length →
      (le32 (p.image.take 4)).toNat + p.stackSize ≤ p.memSize → ∃ s, construct p = .ok s)

/-- 70_reset_and_hazards.md R172: what construction leaves where its checks pass; the instance does not step by
itself (the model's Lifecycle: notes/assumptions/9.md); and with parameters in range (notes/assumptions/13.md) it
meets the model's invariant, canonical memory among it (notes/assumptions/1.md). -/
def Obligations.ConstructionLeavesTheResetState : Prop :=
  ∀ (p : Params) (s : State), construct p = .ok s →
    s.code = p.image.drop 4 ∧ s.mem = p.memInit ∧
    (∀ k r, s.getReg k r = 0#64) ∧ s.steps = 0#64 ∧ s.engine = .running ∧
    s.cfg = { memSize := p.memSize, stackSize := p.stackSize,
              dataSize := le32 (p.image.take 4), maxSteps := p.maxSteps } ∧
    engineMove (.atRest s) = (.atRest s, none) ∧
    (p.wf = true → s.Inv)

/-- 70_reset_and_hazards.md R173, R174 (memory kept: decision D12; re-execution: decision D24): an execution request is
accepted at rest in `Running` and `Halted`, refused in `Faulted`; it resets both register files, the counter and
the engine and keeps memory, code and configuration. -/
def Obligations.ExecutionRequestResetsRegisters : Prop :=
  ∀ s : State,
    ((∀ r, s.engine ≠ .faulted r) →
      ∃ t, requestExecution (.atRest s) = .ok (.executing t) ∧ (∀ k r, t.getReg k r = 0#64) ∧
        t.steps = 0#64 ∧ t.engine = .running ∧ t.mem = s.mem ∧ t.code = s.code ∧
        t.cfg = s.cfg) ∧
    (∀ r, s.engine = .faulted r →
      requestExecution (.atRest s) = .error .instanceFaulted)

/-- 50_interfaces.md R130: what the host may do and when, and what it gets. Construct only without an instance;
execute, read and destroy only with one; nothing during an execution (00_scope.md R9, 10_state.md R27); reads
change nothing and show the status and the architectural register. What an accepted execute returns is
ExecuteReturnsWhenTheRunEnds. That the host has no move between two steps of an execution is the model's reading
(notes/assumptions/9.md). -/
def Obligations.HostMovesFollowTheProtocol : Prop :=
  (∀ (p : Params) (s : State), construct p = .ok s →
    hostMove .noInstance (.construct p) = .ok (.atRest s, some .constructed)) ∧
  (∀ (p : Params) (c : ConstructionFault), construct p = .error c →
    hostMove .noInstance (.construct p) = .ok (.noInstance, some (.constructionFault c))) ∧
  (∀ a : HostAction, (∀ p, a ≠ .construct p) →
    hostMove .noInstance a = .error .instanceMissing) ∧
  (∀ (s : State) (p : Params), hostMove (.atRest s) (.construct p) = .error .instanceExists) ∧
  (∀ (s : State) (r : FaultRecord), s.engine = .faulted r →
    hostMove (.atRest s) .execute = .error .instanceFaulted) ∧
  (∀ s : State, (∀ r, s.engine ≠ .faulted r) →
    hostMove (.atRest s) .execute = .ok (.executing s.requestReset, none)) ∧
  (∀ s : State,
    hostMove (.atRest s) .readStatus = .ok (.atRest s, some (.status s.status)) ∧
    (∀ r, hostMove (.atRest s) (.readRegister .int r) =
      .ok (.atRest s, some (.value (.int (s.x.get r).toInt)))) ∧
    (∀ r, hostMove (.atRest s) (.readRegister .float r) =
      .ok (.atRest s, some (.value (.float (s.f.get r))))) ∧
    hostMove (.atRest s) .destroy = .ok (.noInstance, some .nothing)) ∧
  (∀ (s : State) (a : HostAction), hostMove (.executing s) a = .error .executionInFlight)

/-- 50_interfaces.md R128, R130, 40_execution_cycle.md R78: an accepted execution request returns exactly where its run
ends, with the outcome `Halted` or `Faulted(kind, info)` of the terminal state, which the instance then rests
in; where the run does not end it never returns; with a budget (decision D15) it does. The Lifecycle it speaks of is the model's
(notes/assumptions/9.md). -/
def Obligations.ExecuteReturnsWhenTheRunEnds : Prop :=
  ∀ s : State, (∀ r, s.engine ≠ .faulted r) →
    (∀ l' ans, HostCall (.atRest s) .execute l' ans ↔
      ∃ t, ExecutesTo s t ∧ l' = .atRest t ∧
        ((t.engine = .halted ∧ ans = .outcome .halted) ∨
          ∃ r, t.engine = .faulted r ∧ ans = .outcome (.faulted r.kind r.info))) ∧
    ((∀ n t, runSteps n s.requestReset = .next t → t.engine = .running) →
      ∀ l' ans, ¬HostCall (.atRest s) .execute l' ans) ∧
    ∀ n : BitVec 64, s.cfg.maxSteps = some n → ∃ l' ans, HostCall (.atRest s) .execute l' ans

/-- 60_exceptions.md R149 (decision D26), R150 (decision D17), R140 (codes: decision D18): raising a fault sets the
engine state and nothing else, and the status port then shows the kind's code and the `info` of the record, given
for each of the six. -/
def Obligations.RaiseSetsOnlyTheRecord : Prop :=
  (∀ (s : State) (r : FaultRecord), s.raise r = { s with engine := .faulted r } ∧
    (s.raise r).status = .faulted r.kind.code r.info) ∧
  (∀ op : Byte, FaultRecord.kind (.unknownOpcode op) = .unknownOpcode) ∧
  (∀ m : Byte, FaultRecord.kind (.unknownMode m) = .unknownMode) ∧
  (∀ r : Byte, FaultRecord.kind (.registerIndexOutOfRange r) = .registerIndexOutOfRange) ∧
  (∀ addr : Int, FaultRecord.kind (.memoryOutOfBounds addr) = .memoryOutOfBounds) ∧
  (∀ cur : Int, FaultRecord.kind (.codeBufferOverrun cur) = .codeBufferOverrun) ∧
  (∀ n : BitVec 64, FaultRecord.kind (.stepBudgetExceeded n) = .stepBudgetExceeded) ∧
  (∀ op : Byte, FaultRecord.info (.unknownOpcode op) = op.toNat) ∧
  (∀ m : Byte, FaultRecord.info (.unknownMode m) = m.toNat) ∧
  (∀ r : Byte, FaultRecord.info (.registerIndexOutOfRange r) = r.toNat) ∧
  (∀ addr : Int, FaultRecord.info (.memoryOutOfBounds addr) = addr) ∧
  (∀ cur : Int, FaultRecord.info (.codeBufferOverrun cur) = cur) ∧
  (∀ n : BitVec 64, FaultRecord.info (.stepBudgetExceeded n) = n.toNat) ∧
  [FaultKind.unknownOpcode, .unknownMode, .registerIndexOutOfRange, .memoryOutOfBounds,
      .codeBufferOverrun, .stepBudgetExceeded].map FaultKind.code = [1, 2, 3, 4, 5, 6]

/-- The model's own placing of an instruction for a first step (notes/assumptions/4.md): the next step of
`withFetchWord` runs exactly the instruction the decoder reads from the same bits. -/
def Obligations.PlacedInstructionRunsNext : Prop :=
  ∀ (s : State) (nbits w : Nat) (i : Instr), decodeTableWord nbits w = some i →
    step (s.withFetchWord nbits w) = exec i (s.withFetchWord nbits w).countStep
end

