-- ==== Sys2Proof/Laws/Bytes.lean ====
section
/-!
SUPPORT. Byte order: `leBytes` and `leNat` are inverse, and the bytes of a word are its 8-bit fields.
-/

namespace Sys2Proof

@[simp] theorem leBytes_length (n v : Nat) : (leBytes n v).length = n := by
  induction n generalizing v with
  | zero => rfl
  | succ n ih => simp [leBytes, ih]

theorem leNat_lt (bs : List Byte) : leNat bs < 256 ^ bs.length := by
  induction bs with
  | nil => simp [leNat]
  | cons b bs ih =>
    have := b.isLt
    simp only [leNat, List.length_cons, Nat.pow_succ]
    omega

theorem leNat_leBytes (n v : Nat) : leNat (leBytes n v) = v % 256 ^ n := by
  induction n generalizing v with
  | zero => simp [leBytes, leNat, Nat.mod_one]
  | succ n ih =>
    rw [leBytes, leNat, ih, BitVec.toNat_ofNat, Nat.pow_succ' (m := 256), Nat.mod_mul]

theorem leBytes_leNat (bs : List Byte) : leBytes bs.length (leNat bs) = bs := by
  induction bs with
  | nil => rfl
  | cons b bs ih =>
    have hb := b.isLt
    have hdiv : (b.toNat + 256 * leNat bs) / 256 = leNat bs := by omega
    simp only [leNat, List.length_cons, leBytes, hdiv, ih, List.cons.injEq, and_true]
    apply BitVec.eq_of_toNat_eq
    simp only [BitVec.toNat_ofNat]
    omega

theorem leBytes_getElem (n v k : Nat) (h : k < (leBytes n v).length) :
    (leBytes n v)[k] = BitVec.ofNat 8 (v / 256 ^ k) := by
  induction n generalizing v k with
  | zero => simp [leBytes] at h
  | succ n ih =>
    cases k with
    | zero => simp [leBytes]
    | succ k =>
      simp only [leBytes, List.getElem_cons_succ]
      rw [ih, Nat.div_div_eq_div_mul, ← Nat.pow_succ']

@[simp] theorem bytes64_length (w : Word) : (bytes64 w).length = 8 := leBytes_length 8 _

/-- Every word is recovered from its bytes (R57, R66). -/
@[simp] theorem le64_bytes64 (w : Word) : le64 (bytes64 w) = w := by
  apply BitVec.eq_of_toNat_eq
  simp only [le64, bytes64, leNat_leBytes, BitVec.toNat_ofNat]
  have := w.isLt
  omega

/-- Every 8 bytes are recovered from their word (R66). -/
theorem bytes64_le64 (bs : List Byte) (h : bs.length = 8) : bytes64 (le64 bs) = bs := by
  have hlt := leNat_lt bs
  rw [h] at hlt
  have hn : (le64 bs).toNat = leNat bs := by
    simp only [le64, BitVec.toNat_ofNat]
    omega
  rw [bytes64, hn, ← h, leBytes_leNat]

/-- Byte `k` of a word is its bits `8k+7 : 8k` (R7, `bytes64`). -/
theorem bytes64_getElem (w : Word) (k : Nat) (h : k < (bytes64 w).length) :
    (bytes64 w)[k] = w.extractLsb' (8 * k) 8 := by
  apply BitVec.eq_of_toNat_eq
  simp only [bytes64, leBytes_getElem, BitVec.toNat_ofNat, BitVec.extractLsb'_toNat,
    Nat.shiftRight_eq_div_pow, Nat.pow_mul]

/-- The bytes of a word written out (R7, R55). -/
theorem bytes64_eq (w : Word) :
    bytes64 w =
      [w.extractLsb' 0 8, w.extractLsb' 8 8, w.extractLsb' 16 8, w.extractLsb' 24 8,
       w.extractLsb' 32 8, w.extractLsb' 40 8, w.extractLsb' 48 8, w.extractLsb' 56 8] := by
  apply List.ext_getElem
  · simp
  · intro k h _
    rw [bytes64_getElem]
    have : k < 8 := by simpa using h
    interval_cases k <;> rfl

end Sys2Proof
end

