-- ==== Sys2Proof/Laws/Decode.lean ====
section
/-!
SUPPORT. What one read of the code buffer does: it gives the bytes that stand at the cursor, or overruns.
-/

namespace Sys2Proof

open Machine (CodeAt)

/-- The bytes after the first ones stand at the offset after them. -/
theorem codeAt_append {code : List Byte} {off : Int} {bs cs : List Byte}
    (h : CodeAt code off (bs ++ cs)) : CodeAt code (off + bs.length) cs := by
  obtain ⟨h0, t, ht⟩ := h
  refine ⟨by omega, t, ?_⟩
  rw [show (off + bs.length).toNat = off.toNat + bs.length by omega, ← List.drop_drop, ← ht,
    List.append_assoc, List.drop_left]

theorem codeAt_left {code : List Byte} {off : Int} {bs cs : List Byte}
    (h : CodeAt code off (bs ++ cs)) : CodeAt code off bs :=
  ⟨h.1, (List.prefix_append bs cs).trans h.2⟩

/-- Everything `CodeRead` can do (R38). -/
theorem codeRead_cases (code : List Byte) (off : Int) (n : Nat) :
    ((off < 0 ∨ (code.length : Int) < off + n) ∧
        codeRead code off n = .error (.codeBufferOverrun off)) ∨
      (0 ≤ off ∧ off + n ≤ code.length ∧
        codeRead code off n = .ok ((code.drop off.toNat).take n)) := by
  by_cases h : off < 0 ∨ (code.length : Int) < off + n
  · exact .inl ⟨h, by rw [codeRead, if_pos h]⟩
  · exact .inr ⟨by omega, by omega, by rw [codeRead, if_neg h]⟩

/-- A read of bytes that stand at the cursor gives them (R38). -/
theorem codeRead_of_codeAt {code : List Byte} {off : Int} {bs : List Byte}
    (h : CodeAt code off bs) (hne : bs ≠ []) : codeRead code off bs.length = .ok bs := by
  obtain ⟨h0, hp⟩ := h
  have hlen := hp.length_le
  have hpos : 0 < bs.length := List.length_pos_iff.2 hne
  rw [List.length_drop] at hlen
  rw [codeRead, if_neg (by omega), List.prefix_iff_eq_take.1 hp, List.length_take,
    List.length_drop, Nat.min_eq_left hlen]

theorem readByte_of_codeAt {code : List Byte} {off : Int} {b : Byte} {bs : List Byte}
    (h : CodeAt code off (b :: bs)) : readByte code off = .ok (b, off + 1) := by
  have := codeRead_of_codeAt (codeAt_left (bs := [b]) (cs := bs) h) (by simp)
  rw [List.length_singleton] at this
  simp [readByte, this]

theorem readInt64_of_codeAt {code : List Byte} {off : Int} {w : Word} {bs : List Byte}
    (h : CodeAt code off (bytes64 w ++ bs)) : readInt64 code off = .ok (w, off + 8) := by
  have := codeRead_of_codeAt (codeAt_left h)
    (List.length_pos_iff.1 (by rw [bytes64_length]; omega))
  rw [bytes64_length] at this
  simp [readInt64, this]

theorem readFloat64_of_codeAt {code : List Byte} {off : Int} {w : Word} {bs : List Byte}
    (h : CodeAt code off (bytes64 w ++ bs)) : readFloat64 code off = .ok (w, off + 8) :=
  readInt64_of_codeAt h

/-- A byte read that answers gives the byte at the cursor, which is inside the buffer. -/
theorem readByte_ok {code : List Byte} {off cur : Int} {b : Byte}
    (h : readByte code off = .ok (b, cur)) :
    CodeAt code off [b] ∧ off + 1 ≤ code.length ∧ cur = off + 1 := by
  rcases codeRead_cases code off 1 with ⟨-, hr⟩ | ⟨h0, h1, hr⟩
  · simp [readByte, hr] at h
  · simp only [readByte, hr, Except.ok.injEq, Prod.mk.injEq] at h
    obtain ⟨rfl, rfl⟩ := h
    refine ⟨⟨h0, ?_⟩, by omega, rfl⟩
    have hl : 0 < (code.drop off.toNat).length := by rw [List.length_drop]; omega
    cases hd : code.drop off.toNat with
    | nil => simp [hd] at hl
    | cons c cs => exact ⟨cs, by simp⟩

/-- A word read that answers gives the 8 bytes at the cursor, which are inside the buffer. -/
theorem readInt64_ok {code : List Byte} {off cur : Int} {w : Word}
    (h : readInt64 code off = .ok (w, cur)) :
    CodeAt code off (bytes64 w) ∧ off + 8 ≤ code.length ∧ cur = off + 8 := by
  rcases codeRead_cases code off 8 with ⟨-, hr⟩ | ⟨h0, h1, hr⟩
  · simp [readInt64, hr] at h
  · simp only [readInt64, hr, Except.ok.injEq, Prod.mk.injEq] at h
    obtain ⟨rfl, rfl⟩ := h
    refine ⟨⟨h0, ?_⟩, by omega, rfl⟩
    rw [bytes64_le64 _ (by rw [List.length_take, List.length_drop]; omega)]
    exact List.take_prefix _ _

theorem readFloat64_ok {code : List Byte} {off cur : Int} {w : Word}
    (h : readFloat64 code off = .ok (w, cur)) :
    CodeAt code off (bytes64 w) ∧ off + 8 ≤ code.length ∧ cur = off + 8 :=
  readInt64_ok h

/-- A byte read that does not answer overruns at its own cursor. -/
theorem readByte_error {code : List Byte} {off : Int} {e : DecodeFault}
    (h : readByte code off = .error e) :
    e = .codeBufferOverrun off ∧ (off < 0 ∨ (code.length : Int) < off + 1) := by
  rcases codeRead_cases code off 1 with ⟨hb, hr⟩ | ⟨-, -, hr⟩
  · simp only [readByte, hr, Except.error.injEq] at h
    exact ⟨h.symm, by omega⟩
  · simp [readByte, hr] at h

/-- A word read that does not answer overruns at its own cursor. -/
theorem readInt64_error {code : List Byte} {off : Int} {e : DecodeFault}
    (h : readInt64 code off = .error e) :
    e = .codeBufferOverrun off ∧ (off < 0 ∨ (code.length : Int) < off + 8) := by
  rcases codeRead_cases code off 8 with ⟨hb, hr⟩ | ⟨-, -, hr⟩
  · simp only [readInt64, hr, Except.error.injEq] at h
    exact ⟨h.symm, by omega⟩
  · simp [readInt64, hr] at h

theorem readFloat64_error {code : List Byte} {off : Int} {e : DecodeFault}
    (h : readFloat64 code off = .error e) :
    e = .codeBufferOverrun off ∧ (off < 0 ∨ (code.length : Int) < off + 8) :=
  readInt64_error h

end Sys2Proof
end

