-- ==== Sys2Proof/Laws/State.lean ====
section
/-!
SUPPORT. One lemma per field per update of State, each true by definition, so that no later proof unfolds an update.
-/

namespace Sys2Proof.Machine

@[simp] theorem State.raise_x (s : State) (r : FaultRecord) : (s.raise r).x = s.x := rfl

@[simp] theorem State.raise_f (s : State) (r : FaultRecord) : (s.raise r).f = s.f := rfl

@[simp] theorem State.raise_engine (s : State) (r : FaultRecord) :
    (s.raise r).engine = .faulted r := rfl

@[simp] theorem State.raise_steps (s : State) (r : FaultRecord) : (s.raise r).steps = s.steps := rfl

@[simp] theorem State.raise_mem (s : State) (r : FaultRecord) : (s.raise r).mem = s.mem := rfl

@[simp] theorem State.raise_code (s : State) (r : FaultRecord) : (s.raise r).code = s.code := rfl

@[simp] theorem State.raise_cfg (s : State) (r : FaultRecord) : (s.raise r).cfg = s.cfg := rfl

@[simp] theorem State.halt_x (s : State) : (s.halt).x = s.x := rfl

@[simp] theorem State.halt_f (s : State) : (s.halt).f = s.f := rfl

@[simp] theorem State.halt_engine (s : State) : (s.halt).engine = .halted := rfl

@[simp] theorem State.halt_steps (s : State) : (s.halt).steps = s.steps := rfl

@[simp] theorem State.halt_mem (s : State) : (s.halt).mem = s.mem := rfl

@[simp] theorem State.halt_code (s : State) : (s.halt).code = s.code := rfl

@[simp] theorem State.halt_cfg (s : State) : (s.halt).cfg = s.cfg := rfl

@[simp] theorem State.countStep_x (s : State) : (s.countStep).x = s.x := rfl

@[simp] theorem State.countStep_f (s : State) : (s.countStep).f = s.f := rfl

@[simp] theorem State.countStep_engine (s : State) : (s.countStep).engine = s.engine := rfl

@[simp] theorem State.countStep_steps (s : State) : (s.countStep).steps = 
      if s.steps = BitVec.allOnes 64 then Config.stepsOverflow s.steps else s.steps + 1 := rfl

@[simp] theorem State.countStep_mem (s : State) : (s.countStep).mem = s.mem := rfl

@[simp] theorem State.countStep_code (s : State) : (s.countStep).code = s.code := rfl

@[simp] theorem State.countStep_cfg (s : State) : (s.countStep).cfg = s.cfg := rfl

@[simp] theorem State.advance_x (s : State) (n : Nat) :
    (s.advance n).x = s.x.set .ip (s.x.ip + BitVec.ofNat 64 n) := rfl

@[simp] theorem State.advance_f (s : State) (n : Nat) : (s.advance n).f = s.f := rfl

@[simp] theorem State.advance_engine (s : State) (n : Nat) : (s.advance n).engine = s.engine := rfl

@[simp] theorem State.advance_steps (s : State) (n : Nat) : (s.advance n).steps = s.steps := rfl

@[simp] theorem State.advance_mem (s : State) (n : Nat) : (s.advance n).mem = s.mem := rfl

@[simp] theorem State.advance_code (s : State) (n : Nat) : (s.advance n).code = s.code := rfl

@[simp] theorem State.advance_cfg (s : State) (n : Nat) : (s.advance n).cfg = s.cfg := rfl

@[simp] theorem State.storeWord_x (s : State) (a : Nat) (w : Word) :
    (s.storeWord a w).x = s.x := rfl

@[simp] theorem State.storeWord_f (s : State) (a : Nat) (w : Word) :
    (s.storeWord a w).f = s.f := rfl

@[simp] theorem State.storeWord_engine (s : State) (a : Nat) (w : Word) :
    (s.storeWord a w).engine = s.engine := rfl

@[simp] theorem State.storeWord_steps (s : State) (a : Nat) (w : Word) :
    (s.storeWord a w).steps = s.steps := rfl

@[simp] theorem State.storeWord_mem (s : State) (a : Nat) (w : Word) :
    (s.storeWord a w).mem = Mem.writeBytes s.mem a (bytes64 w) := rfl

@[simp] theorem State.storeWord_code (s : State) (a : Nat) (w : Word) :
    (s.storeWord a w).code = s.code := rfl

@[simp] theorem State.storeWord_cfg (s : State) (a : Nat) (w : Word) :
    (s.storeWord a w).cfg = s.cfg := rfl

@[simp] theorem State.setReg_int_x (s : State) (r : Reg) (w : Word) :
    (s.setReg .int r w).x = s.x.set r w := rfl

@[simp] theorem State.setReg_int_f (s : State) (r : Reg) (w : Word) :
    (s.setReg .int r w).f = s.f := rfl

@[simp] theorem State.setReg_int_engine (s : State) (r : Reg) (w : Word) :
    (s.setReg .int r w).engine = s.engine := rfl

@[simp] theorem State.setReg_int_steps (s : State) (r : Reg) (w : Word) :
    (s.setReg .int r w).steps = s.steps := rfl

@[simp] theorem State.setReg_int_mem (s : State) (r : Reg) (w : Word) :
    (s.setReg .int r w).mem = s.mem := rfl

@[simp] theorem State.setReg_int_code (s : State) (r : Reg) (w : Word) :
    (s.setReg .int r w).code = s.code := rfl

@[simp] theorem State.setReg_int_cfg (s : State) (r : Reg) (w : Word) :
    (s.setReg .int r w).cfg = s.cfg := rfl

@[simp] theorem State.setReg_float_x (s : State) (r : Reg) (w : Word) :
    (s.setReg .float r w).x = s.x := rfl

@[simp] theorem State.setReg_float_f (s : State) (r : Reg) (w : Word) :
    (s.setReg .float r w).f = s.f.set r w := rfl

@[simp] theorem State.setReg_float_engine (s : State) (r : Reg) (w : Word) :
    (s.setReg .float r w).engine = s.engine := rfl

@[simp] theorem State.setReg_float_steps (s : State) (r : Reg) (w : Word) :
    (s.setReg .float r w).steps = s.steps := rfl

@[simp] theorem State.setReg_float_mem (s : State) (r : Reg) (w : Word) :
    (s.setReg .float r w).mem = s.mem := rfl

@[simp] theorem State.setReg_float_code (s : State) (r : Reg) (w : Word) :
    (s.setReg .float r w).code = s.code := rfl

@[simp] theorem State.setReg_float_cfg (s : State) (r : Reg) (w : Word) :
    (s.setReg .float r w).cfg = s.cfg := rfl

@[simp] theorem State.requestReset_x (s : State) : (s.requestReset).x = RegFile.zero := rfl

@[simp] theorem State.requestReset_f (s : State) : (s.requestReset).f = RegFile.zero := rfl

@[simp] theorem State.requestReset_engine (s : State) : (s.requestReset).engine = .running := rfl

@[simp] theorem State.requestReset_steps (s : State) : (s.requestReset).steps = 0 := rfl

@[simp] theorem State.requestReset_mem (s : State) : (s.requestReset).mem = s.mem := rfl

@[simp] theorem State.requestReset_code (s : State) : (s.requestReset).code = s.code := rfl

@[simp] theorem State.requestReset_cfg (s : State) : (s.requestReset).cfg = s.cfg := rfl


@[simp] theorem State.getReg_int (s : State) (r : Reg) : s.getReg .int r = s.x.get r := rfl

@[simp] theorem State.getReg_float (s : State) (r : Reg) : s.getReg .float r = s.f.get r := rfl

/-- `IP` after the commit of a register write (R15, R95). -/
@[simp] theorem State.commit_writeReg (s : State) (n : Nat) (k : RegKind) (r : Reg) (w : Word) :
    s.commit n (.writeReg k r w) = (s.advance n).setReg k r w := rfl

/-- The state after the commit of a store (R76). -/
@[simp] theorem State.commit_store (s : State) (n a : Nat) (w : Word) :
    s.commit n (.store a w) = (s.advance n).storeWord a w := rfl

@[simp] theorem State.finish_ok (s : State) (n : Nat) (eff : Effect) :
    s.finish n (.ok eff) = s.commit n eff := rfl

@[simp] theorem State.finish_error (s : State) (n : Nat) (r : FaultRecord) :
    s.finish n (.error r) = s.raise r := rfl

end Sys2Proof.Machine
end

