-- ==== Sys2Proof/Laws/Memory.lean ====
section
/-!
SUPPORT. Memory: every operation keeps the canonical form, a read after a write gives what was written, a write leaves
every other byte alone, and two canonical memories with the same reads are equal.
-/

namespace Sys2Proof.Machine

/-! ### The canonical form -/

theorem Mem.wf_cons {c : Host.Cell} {m : Mem} :
    Mem.wf (c :: m) = true ↔
      c.2 ≠ Config.unlistedByte ∧ (∀ c' ∈ m, c.1 < c'.1) ∧ Mem.wf m = true := by
  simp [Mem.wf, and_assoc]

theorem Mem.below_cons {c : Host.Cell} {m : Mem} {n : Nat} :
    Mem.below (c :: m) n = true ↔ c.1 < n ∧ Mem.below m n = true := by simp [Mem.below]

/-- The cells of a memory after a byte is written: cells there before, and the new one. -/
theorem Mem.mem_writeByte {m : Mem} {a : Nat} {b : Byte} {c : Host.Cell}
    (h : c ∈ Mem.writeByte m a b) : c ∈ m ∨ (c = (a, b) ∧ b ≠ Config.unlistedByte) := by
  induction m with
  | nil =>
    unfold Mem.writeByte at h
    split at h <;> simp_all
  | cons d m ih =>
    unfold Mem.writeByte at h
    split_ifs at h <;> simp only [List.mem_cons] at h ⊢ <;> tauto

/-- A byte write keeps the canonical form. -/
theorem Mem.wf_writeByte {m : Mem} (a : Nat) (b : Byte) (h : Mem.wf m = true) :
    Mem.wf (Mem.writeByte m a b) = true := by
  induction m with
  | nil =>
    unfold Mem.writeByte
    split <;> simp_all [Mem.wf]
  | cons d m ih =>
    obtain ⟨hd, hlt, hm⟩ := Mem.wf_cons.1 h
    unfold Mem.writeByte
    split_ifs with h1 h2 h3 h4
    · exact h
    · refine Mem.wf_cons.2 ⟨h2, ?_, h⟩
      intro c hc
      rcases List.mem_cons.1 hc with rfl | hc
      · exact h1
      · exact Nat.lt_trans h1 (hlt c hc)
    · exact hm
    · exact Mem.wf_cons.2 ⟨h4, fun c hc => h3 ▸ hlt c hc, hm⟩
    · refine Mem.wf_cons.2 ⟨hd, ?_, ih hm⟩
      intro c hc
      rcases Mem.mem_writeByte hc with hc | ⟨rfl, -⟩
      · exact hlt c hc
      · simp only
        omega

/-- A byte write inside the buffer lists nothing outside it. -/
theorem Mem.below_writeByte {m : Mem} {n : Nat} {a : Nat} (b : Byte) (ha : a < n)
    (h : Mem.below m n = true) : Mem.below (Mem.writeByte m a b) n = true := by
  simp only [Mem.below, List.all_eq_true, decide_eq_true_eq] at h ⊢
  intro c hc
  rcases Mem.mem_writeByte hc with hc | ⟨rfl, -⟩
  · exact h c hc
  · exact ha

/-! ### Reads after writes, one byte -/

/-- A byte below every listed address reads as unlisted. -/
theorem Mem.readByte_of_lt {m : Mem} {a : Nat} (h : ∀ c ∈ m, a < c.1) :
    Mem.readByte m a = Config.unlistedByte := by
  induction m with
  | nil => rfl
  | cons c m ih =>
    have hc := h c (by simp)
    rw [Mem.readByte, if_neg (by omega), ih fun c' hc' => h c' (by simp [hc'])]

/-- A byte outside the buffer reads as unlisted. -/
theorem Mem.readByte_of_below {m : Mem} {n a : Nat} (h : Mem.below m n = true) (ha : n ≤ a) :
    Mem.readByte m a = Config.unlistedByte := by
  induction m with
  | nil => rfl
  | cons c m ih =>
    obtain ⟨hc, hm⟩ := Mem.below_cons.1 h
    rw [Mem.readByte, if_neg (by omega), ih hm]

/-- A write leaves every other byte as it was, in canonical form or not. -/
theorem Mem.readByte_writeByte_ne (m : Mem) {a a' : Nat} (b : Byte) (h : a' ≠ a) :
    Mem.readByte (Mem.writeByte m a b) a' = Mem.readByte m a' := by
  induction m with
  | nil =>
    unfold Mem.writeByte
    split <;> simp [Mem.readByte, h]
  | cons c m ih =>
    unfold Mem.writeByte
    split_ifs with h1 h2 h3 h4
    · rfl
    · rw [Mem.readByte, if_neg h]
    · rw [Mem.readByte, if_neg (by omega)]
    · rw [Mem.readByte, if_neg h, Mem.readByte, if_neg (by omega)]
    · rw [Mem.readByte, Mem.readByte, ih]

/-- A read of the byte written gives it. -/
theorem Mem.readByte_writeByte_same {m : Mem} (a : Nat) (b : Byte) (h : Mem.wf m = true) :
    Mem.readByte (Mem.writeByte m a b) a = b := by
  induction m with
  | nil =>
    unfold Mem.writeByte
    split <;> simp_all [Mem.readByte]
  | cons c m ih =>
    obtain ⟨-, hlt, hm⟩ := Mem.wf_cons.1 h
    unfold Mem.writeByte
    split_ifs with h1 h2 h3 h4
    · rw [Mem.readByte, if_neg (by omega), h2]
      exact Mem.readByte_of_lt fun c' hc' => Nat.lt_trans h1 (hlt c' hc')
    · rw [Mem.readByte, if_pos rfl]
    · rw [h4]
      exact Mem.readByte_of_lt fun c' hc' => h3 ▸ hlt c' hc'
    · rw [Mem.readByte, if_pos rfl]
    · rw [Mem.readByte, if_neg h3, ih hm]

/-! ### Reads after writes, many bytes -/

theorem Mem.wf_writeBytes {m : Mem} (a : Nat) (bs : List Byte) (h : Mem.wf m = true) :
    Mem.wf (Mem.writeBytes m a bs) = true := by
  induction bs generalizing m a with
  | nil => exact h
  | cons b bs ih => exact ih (a + 1) (Mem.wf_writeByte a b h)

theorem Mem.below_writeBytes {m : Mem} {n a : Nat} (bs : List Byte) (ha : a + bs.length ≤ n)
    (h : Mem.below m n = true) : Mem.below (Mem.writeBytes m a bs) n = true := by
  induction bs generalizing m a with
  | nil => exact h
  | cons b bs ih =>
    rw [List.length_cons] at ha
    exact ih (by omega) (Mem.below_writeByte b (by omega) h)

/-- A write of `bs` from `a` leaves every byte outside `[a, a + bs.length)` as it was. -/
theorem Mem.readByte_writeBytes_of_not_mem (m : Mem) {a a' : Nat} (bs : List Byte)
    (h : a' < a ∨ a + bs.length ≤ a') :
    Mem.readByte (Mem.writeBytes m a bs) a' = Mem.readByte m a' := by
  induction bs generalizing m a with
  | nil => rfl
  | cons b bs ih =>
    rw [List.length_cons] at h
    rw [Mem.writeBytes, ih _ (by omega), Mem.readByte_writeByte_ne _ _ (by omega)]

/-- A write of `bs` from `a` leaves byte `k` of `bs` at `a + k`. -/
theorem Mem.readByte_writeBytes {m : Mem} (a : Nat) (bs : List Byte) (h : Mem.wf m = true)
    (k : Nat) (hk : k < bs.length) :
    Mem.readByte (Mem.writeBytes m a bs) (a + k) = bs[k] := by
  induction bs generalizing m a k with
  | nil => simp at hk
  | cons b bs ih =>
    rw [Mem.writeBytes]
    cases k with
    | zero =>
      rw [Mem.readByte_writeBytes_of_not_mem _ _ (by omega)]
      exact Mem.readByte_writeByte_same a b h
    | succ k =>
      have := ih (a + 1) (Mem.wf_writeByte a b h) k (by simpa using hk)
      rw [show a + (k + 1) = a + 1 + k by omega]
      simpa using this

@[simp] theorem Mem.readBytes_length (m : Mem) (a n : Nat) : (Mem.readBytes m a n).length = n := by
  induction n generalizing a with
  | zero => rfl
  | succ n ih => simp [Mem.readBytes, ih]

theorem Mem.readBytes_getElem (m : Mem) (a n k : Nat) (h : k < (Mem.readBytes m a n).length) :
    (Mem.readBytes m a n)[k] = Mem.readByte m (a + k) := by
  induction n generalizing a k with
  | zero => simp [Mem.readBytes] at h
  | succ n ih =>
    cases k with
    | zero => rfl
    | succ k =>
      simp only [Mem.readBytes, List.getElem_cons_succ]
      rw [ih, show a + 1 + k = a + (k + 1) by omega]

/-- A read of the bytes just written gives them. -/
theorem Mem.readBytes_writeBytes {m : Mem} (a : Nat) (bs : List Byte) (h : Mem.wf m = true) :
    Mem.readBytes (Mem.writeBytes m a bs) a bs.length = bs := by
  apply List.ext_getElem
  · simp
  · intro k _ hk
    rw [Mem.readBytes_getElem, Mem.readByte_writeBytes a bs h k hk]

/-- Equal memories are equal data: canonical memories with the same reads are the same list. -/
theorem Mem.ext_readByte {m m' : Mem} (h : Mem.wf m = true) (h' : Mem.wf m' = true)
    (heq : ∀ a, Mem.readByte m a = Mem.readByte m' a) : m = m' := by
  induction m generalizing m' with
  | nil =>
    cases m' with
    | nil => rfl
    | cons c' m' =>
      have := heq c'.1
      rw [Mem.readByte, Mem.readByte, if_pos rfl] at this
      exact absurd this.symm (Mem.wf_cons.1 h').1
  | cons c m ih =>
    obtain ⟨hc, hlt, hm⟩ := Mem.wf_cons.1 h
    have h1 := heq c.1
    rw [Mem.readByte, if_pos rfl] at h1
    cases m' with
    | nil => exact absurd h1 hc
    | cons c' m' =>
      obtain ⟨hc', hlt', hm'⟩ := Mem.wf_cons.1 h'
      have h2 := heq c'.1
      rw [Mem.readByte, Mem.readByte, if_pos rfl] at h2
      rw [Mem.readByte] at h1
      have hkey : c.1 = c'.1 := by
        by_contra hne
        rw [if_neg hne] at h1
        rw [if_neg (Ne.symm hne)] at h2
        rcases Nat.lt_or_gt_of_ne hne with hl | hl
        · rw [Mem.readByte_of_lt fun d hd => Nat.lt_trans hl (hlt' d hd)] at h1
          exact hc h1
        · rw [Mem.readByte_of_lt fun d hd => Nat.lt_trans hl (hlt d hd)] at h2
          exact hc' h2.symm
      rw [if_pos hkey] at h1
      have htail : m = m' := by
        apply ih hm hm'
        intro a
        have ha := heq a
        rw [Mem.readByte, Mem.readByte] at ha
        by_cases hac : a = c.1
        · rw [hac, Mem.readByte_of_lt hlt, hkey, Mem.readByte_of_lt hlt']
        · rwa [if_neg hac, if_neg (by omega)] at ha
      rw [htail, Prod.ext hkey h1]

/-! ### The bounds check and the accesses of State (R33, R34) -/

theorem State.boundsCheck_ok {s : State} {addr : Int} (h0 : 0 ≤ addr)
    (h1 : addr + 8 ≤ s.cfg.memSize) : s.boundsCheck addr = .ok addr.toNat := by
  rw [State.boundsCheck, if_neg (by omega)]

theorem State.boundsCheck_error {s : State} {addr : Int}
    (h : addr < 0 ∨ (s.cfg.memSize : Int) < addr + 8) :
    s.boundsCheck addr = .error (.memoryOutOfBounds addr) := by
  rw [State.boundsCheck, if_pos h]

/-- Everything the bounds check can do (R34). -/
theorem State.boundsCheck_cases (s : State) (addr : Int) :
    ((addr < 0 ∨ (s.cfg.memSize : Int) < addr + 8) ∧
        s.boundsCheck addr = .error (.memoryOutOfBounds addr)) ∨
      (0 ≤ addr ∧ addr + 8 ≤ s.cfg.memSize ∧ s.boundsCheck addr = .ok addr.toNat) := by
  by_cases h : addr < 0 ∨ (s.cfg.memSize : Int) < addr + 8
  · exact .inl ⟨h, State.boundsCheck_error h⟩
  · exact .inr ⟨by omega, by omega, State.boundsCheck_ok (by omega) (by omega)⟩

theorem State.memRead_ok {s : State} {addr : Int} (h0 : 0 ≤ addr)
    (h1 : addr + 8 ≤ s.cfg.memSize) :
    s.memRead addr = .ok (le64 (Mem.readBytes s.mem addr.toNat 8)) := by
  rw [State.memRead, State.boundsCheck_ok h0 h1]

theorem State.memRead_error {s : State} {addr : Int}
    (h : addr < 0 ∨ (s.cfg.memSize : Int) < addr + 8) :
    s.memRead addr = .error (.memoryOutOfBounds addr) := by
  rw [State.memRead, State.boundsCheck_error h]

/-- A word read back after it is stored (R33, R41). -/
theorem State.readBytes_storeWord {s : State} (a : Nat) (w : Word) (h : Mem.wf s.mem = true) :
    le64 (Mem.readBytes (s.storeWord a w).mem a 8) = w := by
  have := Mem.readBytes_writeBytes a (bytes64 w) h
  rw [bytes64_length] at this
  rw [State.storeWord_mem, this, le64_bytes64]

theorem State.storeWord_wf {s : State} (a : Nat) (w : Word) (h : Mem.wf s.mem = true) :
    Mem.wf (s.storeWord a w).mem = true := Mem.wf_writeBytes a _ h

theorem State.storeWord_below {s : State} {n a : Nat} (w : Word) (ha : a + 8 ≤ n)
    (h : Mem.below s.mem n = true) : Mem.below (s.storeWord a w).mem n = true :=
  Mem.below_writeBytes _ (by simpa using ha) h

/-- The bytes the store of a word leaves (R32, R33). -/
theorem State.readByte_storeWord {s : State} (a : Nat) (w : Word) (h : Mem.wf s.mem = true)
    (k : Nat) (hk : k < 8) :
    Mem.readByte (s.storeWord a w).mem (a + k) = w.extractLsb' (8 * k) 8 := by
  rw [State.storeWord_mem, Mem.readByte_writeBytes a _ h k (by simpa using hk), bytes64_getElem]

/-- The store of a word leaves every byte outside its 8 as it was. -/
theorem State.readByte_storeWord_of_not_mem (s : State) {a b : Nat} (w : Word)
    (h : b < a ∨ a + 8 ≤ b) :
    Mem.readByte (s.storeWord a w).mem b = Mem.readByte s.mem b := by
  rw [State.storeWord_mem, Mem.readByte_writeBytes_of_not_mem _ _ (by simpa using h)]

/-- The word the 8 bytes from `a` hold is what a read of them gives (R32, R33). -/
theorem Mem.le64_readBytes_of_bytes {m : Mem} {a : Nat} {w : Word}
    (h : ∀ k, k < 8 → Mem.readByte m (a + k) = w.extractLsb' (8 * k) 8) :
    le64 (Mem.readBytes m a 8) = w := by
  have : Mem.readBytes m a 8 = bytes64 w := by
    apply List.ext_getElem
    · simp
    · intro k hk _
      rw [Mem.readBytes_getElem, bytes64_getElem, h k (by simpa using hk)]
  rw [this, le64_bytes64]

end Sys2Proof.Machine
end

