-- ==== Sys2Proof/Laws/PerInstr.lean ====
section
/-!
SUPPORT. Statements made per instruction, one lemma per constructor of Instr.
-/

namespace Sys2Proof.Laws.FieldLayout

/-- R51, R54, R55: the length of an instruction is its opcode and mode bytes and the widths of its operand
fields, at most 19; and its register bytes stand in its encoding in their order. -/
def Statement (i : Instr) : Prop :=
  i.length = i.form.header.length + (i.form.operandKinds.map OperandKind.width).sum ∧
    i.length ≤ maxInstrLength ∧
    (i.regBytes.map (·.2)).Sublist (encodeOperands i.form.operandKinds i.operands)

theorem nop : Statement .nop := ⟨rfl, by decide, .slnil⟩

theorem movRI (rd : Byte) (imm : Word) : Statement (.movRI rd imm) :=
  ⟨rfl, Nat.le_of_ble_eq_true rfl, (List.nil_sublist _).cons_cons rd⟩

theorem movFI (rd : Byte) (fimm : Word) : Statement (.movFI rd fimm) :=
  ⟨rfl, Nat.le_of_ble_eq_true rfl, (List.nil_sublist _).cons_cons rd⟩

theorem movRR (rd rs : Byte) : Statement (.movRR rd rs) :=
  ⟨rfl, Nat.le_of_ble_eq_true rfl, ((List.nil_sublist _).cons_cons rs).cons_cons rd⟩

theorem movLD (rd : Byte) (src : MemIndirect) : Statement (.movLD rd src) :=
  ⟨rfl, Nat.le_of_ble_eq_true rfl, ((List.nil_sublist _).cons_cons src.base).cons_cons rd⟩

theorem movST (dst : MemIndirect) (rs : Byte) : Statement (.movST dst rs) :=
  ⟨rfl, Nat.le_of_ble_eq_true rfl, (List.sublist_append_right (bytes64 dst.offset) [rs]).cons_cons dst.base⟩

theorem movSTI (dst : MemIndirect) (imm : Word) : Statement (.movSTI dst imm) :=
  ⟨rfl, Nat.le_of_ble_eq_true rfl, (List.nil_sublist _).cons_cons dst.base⟩

theorem movFLD (rd : Byte) (src : MemIndirect) : Statement (.movFLD rd src) :=
  ⟨rfl, Nat.le_of_ble_eq_true rfl, ((List.nil_sublist _).cons_cons src.base).cons_cons rd⟩

theorem movFST (dst : MemIndirect) (rs : Byte) : Statement (.movFST dst rs) :=
  ⟨rfl, Nat.le_of_ble_eq_true rfl, (List.sublist_append_right (bytes64 dst.offset) [rs]).cons_cons dst.base⟩

theorem movFSTI (dst : MemIndirect) (fimm : Word) : Statement (.movFSTI dst fimm) :=
  ⟨rfl, Nat.le_of_ble_eq_true rfl, (List.nil_sublist _).cons_cons dst.base⟩

end Sys2Proof.Laws.FieldLayout
end

