-- ==== Sys2Proof/Laws/Registers.lean ====
section
/-!
SUPPORT. Register indices and the two register files: what a byte names, and what a write changes.
-/

namespace Sys2Proof

@[simp] theorem Reg.index_le (r : Reg) : r.index ≤ 7 := by cases r <;> decide

/-- A byte names a register exactly when it is that register's index (R10, R13). -/
theorem Reg.ofByte_eq_some (b : Byte) (r : Reg) : Reg.ofByte b = some r ↔ b.toNat = r.index := by
  unfold Reg.ofByte
  split <;> cases r <;> simp_all [Reg.index]

/-- A byte names no register exactly when it is 8 to 255 (R13, R58). -/
theorem Reg.ofByte_eq_none (b : Byte) : Reg.ofByte b = none ↔ 8 ≤ b.toNat := by
  unfold Reg.ofByte
  split <;> simp_all
  omega

/-- A register byte in range names a register. -/
theorem Reg.ofByte_of_le {b : Byte} (h : b.toNat ≤ 7) : ∃ r, Reg.ofByte b = some r := by
  cases hb : Reg.ofByte b with
  | none => have := (Reg.ofByte_eq_none b).1 hb; omega
  | some r => exact ⟨r, rfl⟩

@[simp] theorem Reg.ofByte_ofNat_index (r : Reg) :
    Reg.ofByte (BitVec.ofNat 8 r.index) = some r := by cases r <;> rfl

namespace Machine

/-- What a write of one register leaves in each register (R10). -/
theorem RegFile.get_set (g : RegFile) (r q : Reg) (w : Word) :
    (g.set r w).get q = if q = r then w else g.get q := by
  cases r <;> cases q <;> rfl

@[simp] theorem RegFile.get_set_same (g : RegFile) (r : Reg) (w : Word) :
    (g.set r w).get r = w := by simp [RegFile.get_set]

@[simp] theorem RegFile.get_set_of_ne (g : RegFile) {r q : Reg} (w : Word) (h : q ≠ r) :
    (g.set r w).get q = g.get q := by simp [RegFile.get_set, h]

@[simp] theorem RegFile.get_zero (r : Reg) : RegFile.zero.get r = 0 := by cases r <;> rfl

@[simp] theorem RegFile.get_ip (g : RegFile) : g.get .ip = g.ip := rfl

@[simp] theorem RegFile.set_ip (g : RegFile) (w : Word) : (g.set .ip w).ip = w := rfl

theorem RegFile.set_ip_of_ne (g : RegFile) {r : Reg} (w : Word) (h : r ≠ .ip) :
    (g.set r w).ip = g.ip := by cases r <;> first | rfl | exact absurd rfl h

/-- Equal reads, equal files. -/
theorem RegFile.ext_get {g g' : RegFile} (h : ∀ r, g.get r = g'.get r) : g = g' := by
  cases g; cases g'
  have h0 := h .ip; have h1 := h .sp; have h2 := h .bp; have h3 := h .a
  have h4 := h .b; have h5 := h .c; have h6 := h .d; have h7 := h .e
  simp_all [RegFile.get]

theorem validate_some {b : Byte} {r : Reg} (h : Reg.ofByte b = some r) : validate b = .ok r := by
  simp [validate, h]

theorem validate_none {b : Byte} (h : Reg.ofByte b = none) :
    validate b = .error (.registerIndexOutOfRange b) := by simp [validate, h]

/-- Stage 5 on a byte in range (R75). -/
theorem withReg_some {b : Byte} {r : Reg} (h : Reg.ofByte b = some r)
    (k : Reg → Except FaultRecord Effect) : withReg b k = k r := by
  simp [withReg, validate_some h]

/-- Stage 5 on a byte out of range (R75). -/
theorem withReg_none {b : Byte} (h : Reg.ofByte b = none)
    (k : Reg → Except FaultRecord Effect) :
    withReg b k = .error (.registerIndexOutOfRange b) := by simp [withReg, validate_none h]

/-- Stage 5 on two bytes in range. -/
theorem withRegs_some {b1 b2 : Byte} {r1 r2 : Reg} (h1 : Reg.ofByte b1 = some r1)
    (h2 : Reg.ofByte b2 = some r2) (k : Reg → Reg → Except FaultRecord Effect) :
    withRegs b1 b2 k = k r1 r2 := by simp [withRegs, withReg_some h1, withReg_some h2]

/-- Stage 5 reports the first byte where it is out of range (R75). -/
theorem withRegs_none {b1 b2 : Byte} (h1 : Reg.ofByte b1 = none)
    (k : Reg → Reg → Except FaultRecord Effect) :
    withRegs b1 b2 k = .error (.registerIndexOutOfRange b1) := withReg_none h1 _

/-- Stage 5 reports the second byte where only it is out of range (R75). -/
theorem withRegs_some_none {b1 b2 : Byte} {r1 : Reg} (h1 : Reg.ofByte b1 = some r1)
    (h2 : Reg.ofByte b2 = none) (k : Reg → Reg → Except FaultRecord Effect) :
    withRegs b1 b2 k = .error (.registerIndexOutOfRange b2) := by
  simp [withRegs, withReg_some h1, withReg_none h2]

end Machine

end Sys2Proof
end

