-- ==== Sys2Proof/Laws/Step.lean ====
section
/-!
SUPPORT. Everything a shared operation, a meaning and a step can do, said once each.
-/

namespace Sys2Proof.Machine

/-- Stage 5 on one byte: its register, or the fault that names it. -/
theorem withReg_cases (b : Byte) (k : Reg → Except FaultRecord Effect) :
    (8 ≤ b.toNat ∧ withReg b k = .error (.registerIndexOutOfRange b)) ∨
      ∃ r, Reg.ofByte b = some r ∧ withReg b k = k r := by
  cases h : Reg.ofByte b with
  | none => exact .inl ⟨(Reg.ofByte_eq_none b).1 h, withReg_none h k⟩
  | some r => exact .inr ⟨r, rfl, withReg_some h k⟩

/-- Stage 5 on two bytes: both registers, or the fault that names the first bad byte (R75). -/
theorem withRegs_cases (b1 b2 : Byte) (k : Reg → Reg → Except FaultRecord Effect) :
    (8 ≤ b1.toNat ∧ withRegs b1 b2 k = .error (.registerIndexOutOfRange b1)) ∨
      (b1.toNat ≤ 7 ∧ 8 ≤ b2.toNat ∧ withRegs b1 b2 k = .error (.registerIndexOutOfRange b2)) ∨
      ∃ r1 r2, Reg.ofByte b1 = some r1 ∧ Reg.ofByte b2 = some r2 ∧
        withRegs b1 b2 k = k r1 r2 := by
  rcases withReg_cases b1 (fun q => withReg b2 (k q)) with h | ⟨r1, h1, e1⟩
  · exact .inl h
  · rcases withReg_cases b2 (k r1) with ⟨h2, e2⟩ | ⟨r2, h2, e2⟩
    · exact .inr (.inl ⟨by rw [(Reg.ofByte_eq_some b1 r1).1 h1]; exact r1.index_le, h2,
        e1.trans e2⟩)
    · exact .inr (.inr ⟨r1, r2, h1, h2, e1.trans e2⟩)

/-- Everything a load's stage 6 can do (R101, R104). -/
theorem State.load_cases (s : State) (k : RegKind) (rd rb : Reg) (off : Word) :
    ((s.ea rb off < 0 ∨ (s.cfg.memSize : Int) < s.ea rb off + 8) ∧
        s.load k rd rb off = .error (.memoryOutOfBounds (s.ea rb off))) ∨
      (s.InBounds (s.ea rb off) ∧
        s.load k rd rb off =
          .ok (.writeReg k rd (le64 (Mem.readBytes s.mem (s.ea rb off).toNat 8)))) := by
  rcases s.boundsCheck_cases (s.ea rb off) with ⟨h, he⟩ | ⟨h0, h1, he⟩
  · exact .inl ⟨h, by simp [State.load, State.memRead, he]⟩
  · exact .inr ⟨⟨h0, h1⟩, by simp [State.load, State.memRead, he]⟩

/-- Everything a store's stage 6 can do (R102, R103, R105, R106). -/
theorem State.store_cases (s : State) (rb : Reg) (off w : Word) :
    ((s.ea rb off < 0 ∨ (s.cfg.memSize : Int) < s.ea rb off + 8) ∧
        s.store rb off w = .error (.memoryOutOfBounds (s.ea rb off))) ∨
      (s.InBounds (s.ea rb off) ∧ s.store rb off w = .ok (.store (s.ea rb off).toNat w)) := by
  rcases s.boundsCheck_cases (s.ea rb off) with ⟨h, he⟩ | ⟨h0, h1, he⟩
  · exact .inl ⟨h, by simp [State.store, he]⟩
  · exact .inr ⟨⟨h0, h1⟩, by simp [State.store, he]⟩

/-- The sum of two `i64` values is an exact integer in `-2^64 .. 2^64 - 2` (R100). -/
theorem State.ea_range (s : State) (rb : Reg) (off : Word) :
    -2 ^ 64 ≤ s.ea rb off ∧ s.ea rb off ≤ 2 ^ 64 - 2 := by
  have h1 := (s.x.get rb).toInt_lt
  have h2 := (s.x.get rb).le_toInt
  have h3 := off.toInt_lt
  have h4 := off.le_toInt
  unfold State.ea
  omega

/-- The fault of a budget that is spent (R72). -/
theorem State.budgetFault_eq_some {s : State} {r : FaultRecord} (h : s.budgetFault = some r) :
    ∃ n, s.cfg.maxSteps = some n ∧ n ≤ s.steps ∧ r = .stepBudgetExceeded n := by
  unfold State.budgetFault at h
  split at h
  · cases h
  · next n hn =>
    split at h
    · next hle => exact ⟨n, hn, hle, by simpa using h.symm⟩
    · cases h

/-- A budget that is not spent (R72). -/
theorem State.budgetFault_eq_none {s : State} :
    s.budgetFault = none ↔ ∀ n, s.cfg.maxSteps = some n → s.steps < n := by
  unfold State.budgetFault
  split
  · simp_all
  · next m hm =>
    simp only [hm, Option.some.injEq, forall_eq', ite_eq_right_iff, reduceCtorEq, imp_false,
      BitVec.not_le]

/-- A meaning halts (NOP only), raises a fault, or commits one effect. -/
theorem exec_cases (i : Instr) (s : State) :
    (i = .nop ∧ exec i s = .next s.halt) ∨
      (∃ r, exec i s = .next (s.raise r)) ∨
      ∃ eff, exec i s = .next (s.commit i.length eff) := by
  have hf : ∀ (n : Nat) (o : Except FaultRecord Effect),
      (∃ r, s.finish n o = s.raise r) ∨ ∃ eff, s.finish n o = s.commit n eff := by
    intro n o
    cases o with
    | error r => exact .inl ⟨r, rfl⟩
    | ok eff => exact .inr ⟨eff, rfl⟩
  cases i
  case nop => exact .inl ⟨rfl, rfl⟩
  all_goals
    exact .inr ((hf _ _).imp (Exists.imp fun _ h => congrArg _ h)
      (Exists.imp fun _ h => congrArg _ h))

/-- Everything the meaning of an instruction can do: halt (NOP), name a register byte of its own that is out of
range, name its own effective address out of bounds, write its destination register, or store its word. -/
theorem exec_inversion (i : Instr) (s : State) :
    (i = .nop ∧ exec i s = .next s.halt) ∨
      (∃ k b, (k, b) ∈ i.regBytes ∧ 8 ≤ b.toNat ∧
        exec i s = .next (s.raise (.registerIndexOutOfRange b))) ∨
      (∃ m rb, memOperand i = some m ∧ Reg.ofByte m.base = some rb ∧
        ¬s.InBounds (s.ea rb m.offset) ∧
        exec i s = .next (s.raise (.memoryOutOfBounds (s.ea rb m.offset)))) ∨
      (∃ k b p w, destReg i = some (k, b) ∧ storesMemory i = false ∧ Reg.ofByte b = some p ∧
        exec i s = .next ((s.advance i.length).setReg k p w)) ∨
      ∃ m rb w, destReg i = none ∧ memOperand i = some m ∧ Reg.ofByte m.base = some rb ∧
        storesMemory i = true ∧ s.storeAddr i = some (s.ea rb m.offset) ∧
        s.storeValue i = some w ∧ s.InBounds (s.ea rb m.offset) ∧
        exec i s = .next ((s.advance i.length).storeWord (s.ea rb m.offset).toNat w) := by
  have notIn : ∀ {a : Int}, (a < 0 ∨ (s.cfg.memSize : Int) < a + 8) → ¬s.InBounds a := by
    intro a h h'
    unfold State.InBounds at h'
    omega
  have fin : ∀ {n : Nat} {o o' : Except FaultRecord Effect}, o = o' →
      (Host.Outcome.next (s.finish n o) : Answer) = .next (s.finish n o') := fun h => by rw [h]
  cases i with
  | nop => exact .inl ⟨rfl, rfl⟩
  | movRI rd imm =>
    refine .inr ?_
    rcases withReg_cases rd (fun p => .ok (.writeReg .int p imm)) with ⟨h, e⟩ | ⟨p, h, e⟩
    · exact .inl ⟨_, rd, List.mem_cons_self, h, fin e⟩
    · exact .inr (.inr (.inl ⟨_, rd, p, _, rfl, rfl, h, fin e⟩))
  | movFI rd fimm =>
    refine .inr ?_
    rcases withReg_cases rd (fun p => .ok (.writeReg .float p fimm)) with ⟨h, e⟩ | ⟨p, h, e⟩
    · exact .inl ⟨_, rd, List.mem_cons_self, h, fin e⟩
    · exact .inr (.inr (.inl ⟨_, rd, p, _, rfl, rfl, h, fin e⟩))
  | movRR rd rs =>
    refine .inr ?_
    rcases withRegs_cases rd rs (fun p q => .ok (.writeReg .int p (s.getReg .int q))) with
      ⟨h, e⟩ | ⟨-, h, e⟩ | ⟨p, q, h, -, e⟩
    · exact .inl ⟨_, rd, List.mem_cons_self, h, fin e⟩
    · exact .inl ⟨_, rs, .tail _ (.head _), h, fin e⟩
    · exact .inr (.inr (.inl ⟨_, rd, p, _, rfl, rfl, h, fin e⟩))
  | movLD rd src =>
    refine .inr ?_
    rcases withRegs_cases rd src.base (fun p rb => s.load .int p rb src.offset) with
      ⟨h, e⟩ | ⟨-, h, e⟩ | ⟨p, q, h, hb, e⟩
    · exact .inl ⟨_, rd, List.mem_cons_self, h, fin e⟩
    · exact .inl ⟨_, src.base, .tail _ (.head _), h, fin e⟩
    · rcases s.load_cases .int p q src.offset with ⟨ho, el⟩ | ⟨-, el⟩
      · exact .inr (.inl ⟨src, q, rfl, hb, notIn ho, fin (e.trans el)⟩)
      · exact .inr (.inr (.inl ⟨_, rd, p, _, rfl, rfl, h, fin (e.trans el)⟩))
  | movFLD rd src =>
    refine .inr ?_
    rcases withRegs_cases rd src.base (fun p rb => s.load .float p rb src.offset) with
      ⟨h, e⟩ | ⟨-, h, e⟩ | ⟨p, q, h, hb, e⟩
    · exact .inl ⟨_, rd, List.mem_cons_self, h, fin e⟩
    · exact .inl ⟨_, src.base, .tail _ (.head _), h, fin e⟩
    · rcases s.load_cases .float p q src.offset with ⟨ho, el⟩ | ⟨-, el⟩
      · exact .inr (.inl ⟨src, q, rfl, hb, notIn ho, fin (e.trans el)⟩)
      · exact .inr (.inr (.inl ⟨_, rd, p, _, rfl, rfl, h, fin (e.trans el)⟩))
  | movST dst rs =>
    refine .inr ?_
    rcases withRegs_cases dst.base rs (fun rb q => s.store rb dst.offset (s.getReg .int q)) with
      ⟨h, e⟩ | ⟨-, h, e⟩ | ⟨q, p, hb, h, e⟩
    · exact .inl ⟨_, dst.base, List.mem_cons_self, h, fin e⟩
    · exact .inl ⟨_, rs, .tail _ (.head _), h, fin e⟩
    · rcases s.store_cases q dst.offset (s.getReg .int p) with ⟨ho, el⟩ | ⟨hi, el⟩
      · exact .inr (.inl ⟨dst, q, rfl, hb, notIn ho, fin (e.trans el)⟩)
      · exact .inr (.inr (.inr ⟨dst, q, _, rfl, rfl, hb, rfl, by simp [State.storeAddr, hb],
          by simp [State.storeValue, h], hi, fin (e.trans el)⟩))
  | movFST dst rs =>
    refine .inr ?_
    rcases withRegs_cases dst.base rs (fun rb q => s.store rb dst.offset (s.getReg .float q)) with
      ⟨h, e⟩ | ⟨-, h, e⟩ | ⟨q, p, hb, h, e⟩
    · exact .inl ⟨_, dst.base, List.mem_cons_self, h, fin e⟩
    · exact .inl ⟨_, rs, .tail _ (.head _), h, fin e⟩
    · rcases s.store_cases q dst.offset (s.getReg .float p) with ⟨ho, el⟩ | ⟨hi, el⟩
      · exact .inr (.inl ⟨dst, q, rfl, hb, notIn ho, fin (e.trans el)⟩)
      · exact .inr (.inr (.inr ⟨dst, q, _, rfl, rfl, hb, rfl, by simp [State.storeAddr, hb],
          by simp [State.storeValue, h], hi, fin (e.trans el)⟩))
  | movSTI dst imm =>
    refine .inr ?_
    rcases withReg_cases dst.base (fun rb => s.store rb dst.offset imm) with ⟨h, e⟩ | ⟨q, hb, e⟩
    · exact .inl ⟨_, dst.base, List.mem_cons_self, h, fin e⟩
    · rcases s.store_cases q dst.offset imm with ⟨ho, el⟩ | ⟨hi, el⟩
      · exact .inr (.inl ⟨dst, q, rfl, hb, notIn ho, fin (e.trans el)⟩)
      · exact .inr (.inr (.inr ⟨dst, q, imm, rfl, rfl, hb, rfl, by simp [State.storeAddr, hb],
          rfl, hi, fin (e.trans el)⟩))
  | movFSTI dst fimm =>
    refine .inr ?_
    rcases withReg_cases dst.base (fun rb => s.store rb dst.offset fimm) with ⟨h, e⟩ | ⟨q, hb, e⟩
    · exact .inl ⟨_, dst.base, List.mem_cons_self, h, fin e⟩
    · rcases s.store_cases q dst.offset fimm with ⟨ho, el⟩ | ⟨hi, el⟩
      · exact .inr (.inl ⟨dst, q, rfl, hb, notIn ho, fin (e.trans el)⟩)
      · exact .inr (.inr (.inr ⟨dst, q, fimm, rfl, rfl, hb, rfl, by simp [State.storeAddr, hb],
          rfl, hi, fin (e.trans el)⟩))

/-- Everything a step can do (R70): nothing in a terminal state, a budget fault, a fetch or decode fault, or
the meaning of the decoded instruction. -/
theorem step_cases (s : State) :
    (s.engine ≠ .running ∧ step s = .next s) ∨
      (s.engine = .running ∧ ∃ r, s.budgetFault = some r ∧ step s = .next (s.raise r)) ∨
      (s.Ready ∧ ∃ e, decodeAt s.code s.x.ip.toInt = .error e ∧
        step s = .next (s.countStep.raise (recordOf e))) ∨
      (s.Ready ∧ ∃ i cur, decodeAt s.code s.x.ip.toInt = .ok (i, cur) ∧
        step s = exec i s.countStep) := by
  unfold step State.Ready
  cases he : s.engine with
  | halted => exact .inl ⟨by simp, rfl⟩
  | faulted r => exact .inl ⟨by simp, rfl⟩
  | running =>
    refine .inr ?_
    cases hb : s.budgetFault with
    | some r => exact .inl ⟨rfl, r, rfl, rfl⟩
    | none =>
      refine .inr ?_
      cases hd : decodeAt s.code s.x.ip.toInt with
      | error e =>
        refine .inl ⟨⟨rfl, rfl⟩, e, rfl, ?_⟩
        simp [State.fetch, hd]
      | ok p =>
        refine .inr ⟨⟨rfl, rfl⟩, p.1, p.2, rfl, ?_⟩
        simp [State.fetch, hd]

end Sys2Proof.Machine
end

