-- ==== Sys2Proof/Laws/Protocol.lean ====
section
/-!
SUPPORT. Everything a turn of the engine can do to the host's instance, and how many steps unfold, said once each.
-/

namespace Sys2Proof.Machine

theorem runSteps_succ {s t : State} (h : step s = .next t) (n : Nat) :
    runSteps (n + 1) s = runSteps n t := by rw [runSteps, h]

@[simp] theorem State.outcome?_eq_none (s : State) : s.outcome? = none ↔ s.engine = .running := by
  unfold State.outcome?
  split <;> simp_all

/-- Everything a turn of the engine can do inside an execution (R78): go on, or end the run and return the
host's request. -/
theorem engineMove_executing {s t : State} (h : step s = .next t) :
    (t.engine = .running ∧ engineMove (.executing s) = (.executing t, none)) ∨
      ∃ o, t.outcome? = some o ∧ engineMove (.executing s) = (.atRest t, some (.outcome o)) := by
  unfold engineMove
  cases ho : t.outcome? with
  | none => exact .inl ⟨(State.outcome?_eq_none t).1 ho, by simp [h, ho]⟩
  | some o => exact .inr ⟨o, rfl, by simp [h, ho]⟩

/-- The turn that goes on leaves the wait one turn shorter. -/
theorem awaitAnswer_of_running {s t : State} (h : step s = .next t) (hr : t.engine = .running)
    (n : Nat) : awaitAnswer (n + 1) (.executing s) = awaitAnswer n (.executing t) := by
  rcases engineMove_executing h with ⟨-, e⟩ | ⟨o, ho, -⟩
  · rw [awaitAnswer, e]
  · rw [(State.outcome?_eq_none t).2 hr] at ho
    cases ho

/-- The turn that ends the run ends the wait. -/
theorem awaitAnswer_of_outcome {s t : State} {o : RunOutcome} (h : step s = .next t)
    (ho : t.outcome? = some o) (n : Nat) :
    awaitAnswer (n + 1) (.executing s) = some (.atRest t, .outcome o) := by
  rcases engineMove_executing h with ⟨hr, -⟩ | ⟨o', ho', e⟩
  · rw [(State.outcome?_eq_none t).2 hr] at ho
    cases ho
  · rw [ho] at ho'
    cases ho'
    rw [awaitAnswer, e]

/-- Nothing is done to an instance during an execution but by the engine (R9, R27). -/
@[simp] theorem hostMove_executing (s : State) (a : HostAction) :
    hostMove (.executing s) a = .error .executionInFlight := rfl

/-- Where an execution request is accepted (R174). -/
theorem hostMove_execute {s : State} (h : ∀ r, s.engine ≠ .faulted r) :
    hostMove (.atRest s) .execute = .ok (.executing s.requestReset, none) := by
  unfold hostMove requestExecution
  cases he : s.engine with
  | running => simp [he]
  | halted => simp [he]
  | faulted r => exact absurd he (h r)

end Sys2Proof.Machine
end

