-- ==== Sys2Proof/Tests/Slice0.lean ====
section
/-!
SUPPORT. Tests of the model against the words and vectors of spec/95_test_vectors.md (each theorem names its vector), the
smoke test of WellFormed, and for every obligation with hypotheses a witness that meets them, at the boundary
values of each clause.
-/

namespace Sys2Proof.Tests

open Sys2Proof.Machine

/-! ### Small states -/

/-- Bytes from their values. -/
def bytes (l : List Nat) : List Byte := l.map (BitVec.ofNat 8)

/-- `n` times the same byte value. -/
def rep (n b : Nat) : List Nat := List.replicate n b

/-- The state after reset with a code buffer and some integer registers. -/
def st (code : List Byte) (x : RegFile := RegFile.zero) : State :=
  { State.reset with code := code, x := x }

/-- The same, with the given bytes of memory from an address upward. -/
def stMem (code : List Byte) (x : RegFile) (a : Nat) (bs : List Byte) : State :=
  { st code x with mem := Mem.writeBytes [] a bs }

/-- The integer file with one register other than zero. -/
def only (r : Reg) (w : Word) : RegFile := RegFile.zero.set r w

/-- The state with a budget. -/
def budget (s : State) (n : BitVec 64) : State := { s with cfg := { s.cfg with maxSteps := some n } }

/-- The state after one step, and after two. -/
def one (s : State) : State := match step s with | .next t => t | .fault _ => s | .refused _ => s
def two (s : State) : State := one (one s)

/-- The eight bytes of memory from an address. -/
def at8 (s : State) (a : Nat) : List Byte := Mem.readBytes s.mem a 8

/-! ### WellFormed: each check refuses an ill-formed term (R13, R58) -/

theorem test_wf_refuses_bad_rd :
    [Instr.movRI 8#8 0, .movFI 8#8 0, .movRR 8#8 0, .movLD 8#8 ⟨0, 0⟩, .movFLD 255#8 ⟨0, 0⟩].map
      Instr.wf = [false, false, false, false, false] := by decide

theorem test_wf_refuses_bad_rs :
    [Instr.movRR 0 8#8, .movST ⟨0, 0⟩ 8#8, .movFST ⟨0, 0⟩ 9#8].map Instr.wf =
      [false, false, false] := by decide

theorem test_wf_refuses_bad_base :
    [Instr.movLD 0 ⟨8#8, 0⟩, .movST ⟨8#8, 0⟩ 0, .movSTI ⟨8#8, 0⟩ 0, .movFLD 0 ⟨8#8, 0⟩,
      .movFST ⟨8#8, 0⟩ 0, .movFSTI ⟨200#8, 0⟩ 0].map Instr.wf =
      [false, false, false, false, false, false] := by decide

theorem test_wf_accepts :
    [Instr.nop, .movRI 7#8 (-1), .movRR 7#8 0, .movLD 0 ⟨7#8, -1⟩, .movST ⟨0, 0⟩ 7#8].map
      Instr.wf = [true, true, true, true, true] := by decide

/-! ### Decoding: words written out from 95_test_vectors.md part 2 -/

/-- N1 -/
def n1 : List Byte := bytes [0x00]
/-- RI2, `MOV.RI E, #-1` -/
def ri2 : List Byte := bytes ([0x01, 0x01, 0x07] ++ rep 8 0xFF)
/-- RI1, `MOV.RI A, #42` -/
def ri1 : List Byte := bytes ([0x01, 0x01, 0x03, 0x2A] ++ rep 7 0)
/-- RI5, `MOV.RI IP, #22` -/
def ri5 : List Byte := bytes ([0x01, 0x01, 0x00, 0x16] ++ rep 7 0)
/-- FI1, `MOV.FI F.A, #1.5` -/
def fi1 : List Byte := bytes ([0x01, 0x02, 0x03] ++ rep 6 0 ++ [0xF8, 0x3F])
/-- RR1, `MOV.RR B, A` -/
def rr1 : List Byte := bytes [0x01, 0x03, 0x04, 0x03]
/-- LD1, `MOV.LD B, [A+8]` -/
def ld1 : List Byte := bytes ([0x01, 0x04, 0x04, 0x03, 0x08] ++ rep 7 0)
/-- ST1, `MOV.ST [A+16], B` -/
def st1 : List Byte := bytes ([0x01, 0x05, 0x03, 0x10] ++ rep 7 0 ++ [0x04])
/-- STI1, `MOV.STI [A+8], #-2` -/
def sti1 : List Byte := bytes ([0x01, 0x06, 0x03, 0x08] ++ rep 7 0 ++ [0xFE] ++ rep 7 0xFF)
/-- FLD1, `MOV.FLD F.B, [D-8]` -/
def fld1 : List Byte := bytes ([0x01, 0x07, 0x04, 0x06, 0xF8] ++ rep 7 0xFF)
/-- FST1, `MOV.FST [D-8], F.A` -/
def fst1 : List Byte := bytes ([0x01, 0x08, 0x06, 0xF8] ++ rep 7 0xFF ++ [0x03])
/-- FSTI1, `MOV.FSTI [D+0], #-0.0` -/
def fsti1 : List Byte := bytes ([0x01, 0x09, 0x06] ++ rep 8 0 ++ rep 7 0 ++ [0x80])

theorem test_decode_NOP : decodeAt n1 0 = .ok (.nop, 1) := by decide
theorem test_decode_RI1 : decodeAt ri1 0 = .ok (.movRI 3#8 42#64, 11) := by decide
theorem test_decode_FI1 :
    decodeAt fi1 0 = .ok (.movFI 3#8 0x3FF8000000000000#64, 11) := by decide
theorem test_decode_RR1 : decodeAt rr1 0 = .ok (.movRR 4#8 3#8, 4) := by decide
theorem test_decode_LD1 : decodeAt ld1 0 = .ok (.movLD 4#8 ⟨3#8, 8#64⟩, 12) := by decide
theorem test_decode_ST1 : decodeAt st1 0 = .ok (.movST ⟨3#8, 16#64⟩ 4#8, 12) := by decide
theorem test_decode_STI1 :
    decodeAt sti1 0 = .ok (.movSTI ⟨3#8, 8#64⟩ (-2), 19) := by decide
theorem test_decode_FLD1 : decodeAt fld1 0 = .ok (.movFLD 4#8 ⟨6#8, -8⟩, 12) := by decide
theorem test_decode_FST1 : decodeAt fst1 0 = .ok (.movFST ⟨6#8, -8⟩ 3#8, 12) := by decide
theorem test_decode_FSTI1 :
    decodeAt fsti1 0 = .ok (.movFSTI ⟨6#8, 0#64⟩ 0x8000000000000000#64, 19) := by decide

/-- The encoder gives the same words (E3). -/
theorem test_encode_STI1 : encode (.movSTI ⟨3#8, 8#64⟩ (-2)) = sti1 := by decide
theorem test_encode_FST1 : encode (.movFST ⟨6#8, -8⟩ 3#8) = fst1 := by decide

/-- D2, D5, D6, D4, RI8, ST8: what the decoder rejects, and at which cursor. -/
theorem test_decode_rejects :
    [decodeAt (bytes [0x02]) 0, decodeAt (bytes [0x01, 0x00]) 0, decodeAt (bytes [0x01, 0x0A]) 0,
      decodeAt (bytes [0x01]) 0, decodeAt (bytes [0x01, 0x01, 0x03, 0x2A, 0, 0]) 0,
      decodeAt (bytes ([0x01, 0x05, 0x03] ++ rep 8 0)) 0] =
    [.error (.unknownOpcode 2#8), .error (.unknownMode 0#8), .error (.unknownMode 10#8),
      .error (.codeBufferOverrun 1), .error (.codeBufferOverrun 3),
      .error (.codeBufferOverrun 11)] := by decide

/-- The table's words (opcode_table.json), with operand bytes zero. -/
theorem test_decodeTableWord :
    decodeTableWord 8 0x00 = some .nop ∧ decodeTableWord 16 0x0101 = some (.movRI 0 0) ∧
      decodeTableWord 16 0x0901 = some (.movFSTI ⟨0, 0⟩ 0) ∧
      decodeTableWord 32 0x03040301 = some (.movRR 4#8 3#8) ∧
      decodeTableWord 16 0x0A01 = none := by decide

/-! ### One step (95_test_vectors.md part 2) -/

theorem test_step_N2 :
    let t := two (st (bytes ([0x01, 0x01, 0x03, 0x01] ++ rep 7 0 ++ [0x00])))
    t.engine = .halted ∧ t.x.a = 1 ∧ t.x.ip = 11 ∧ t.steps = 2 := by decide

theorem test_step_RI5 :
    (one (st ri5)).x.ip = 22 ∧ (one (st ri5)).engine = .running := by decide

theorem test_step_RI6 :
    let s := st (bytes ([0x01, 0x01, 0x08, 0x05] ++ rep 7 0)) (only .a 9)
    (one s).engine = .faulted (.registerIndexOutOfRange 8) ∧ (one s).x = s.x := by decide

/-- FI1, FI3: `f[0]` is not the instruction pointer. -/
theorem test_step_FI1 :
    (one (st fi1)).f.a = 0x3FF8000000000000#64 ∧ (one (st fi1)).x = only .ip 11 := by decide

theorem test_step_FI3 :
    let t := one (st (bytes ([0x01, 0x02, 0x00] ++ rep 6 0 ++ [0x45, 0x40])))
    t.f.ip = 0x4045000000000000#64 ∧ t.x.ip = 11 := by decide

theorem test_step_RR3 :
    let t := one (st (bytes (rep 11 0xEE ++ [0x01, 0x03, 0x03, 0x00])) (only .ip 11))
    t.x.a = 11 ∧ t.x.ip = 15 := by decide

theorem test_step_RR8 :
    (one (st (bytes [0x01, 0x03, 0x09, 0x08]))).engine =
      .faulted (.registerIndexOutOfRange 9) := by decide

theorem test_step_LD1 :
    let t := one (stMem ld1 (only .a 256) 264
      (bytes [0x88, 0x77, 0x66, 0x55, 0x44, 0x33, 0x22, 0x11]))
    t.x.b = 0x1122334455667788#64 ∧ t.x.ip = 12 := by decide

/-- LD8: the sum is exact; a wrapped address 0 would load. -/
theorem test_step_LD8 :
    (one (st (bytes ([0x01, 0x04, 0x04, 0x03] ++ rep 7 0 ++ [0x80]))
      (only .a 0x8000000000000000#64))).engine =
      .faulted (.memoryOutOfBounds (-18446744073709551616)) := by decide

/-- ST6: base and source the same register. -/
theorem test_step_ST6 :
    at8 (one (st (bytes ([0x01, 0x05, 0x03] ++ rep 8 0 ++ [0x03])) (only .a 40))) 40 =
      bytes (0x28 :: rep 7 0) := by decide

/-- ST4: nothing is written, in particular not bytes 65529 to 65535. -/
theorem test_step_ST4 :
    let t := one (st (bytes ([0x01, 0x05, 0x03] ++ rep 8 0 ++ [0x04]))
      ((only .a 65529).set .b 1))
    t.engine = .faulted (.memoryOutOfBounds 65529) ∧ t.mem = [] := by decide

/-- STI3: no stack-pointer update. -/
theorem test_step_STI3 :
    let t := one (st (bytes ([0x01, 0x06, 0x01, 0xF8] ++ rep 7 0xFF ++
      [0xEF, 0xCD, 0xAB, 0x89, 0x67, 0x45, 0x23, 0x01])) (only .sp 4096))
    at8 t 4088 = bytes [0xEF, 0xCD, 0xAB, 0x89, 0x67, 0x45, 0x23, 0x01] ∧
      t.x = (only .sp 4096).set .ip 19 := by decide

/-- FLD2: index 3 is `f[3]` and `x[3]` in one instruction. -/
theorem test_step_FLD2 :
    let t := one (stMem (bytes ([0x01, 0x07, 0x03, 0x03] ++ rep 8 0)) (only .a 24) 24
      (bytes (rep 7 0 ++ [0xC0])))
    t.f.a = 0xC000000000000000#64 ∧ t.x.a = 24 := by decide

/-- FST1: stores `f[3]`, not `x[3]`. -/
theorem test_step_FST1 :
    let s := st fst1 ((only .d 512).set .a 30583)
    at8 (one { s with f := only .a 0x3FF8000000000000#64 }) 504 =
      bytes (rep 6 0 ++ [0xF8, 0x3F]) := by decide

/-- FSTI2 and FSTI3: the last address in the buffer, and the first past it. -/
theorem test_step_FSTI2 :
    let c := bytes ([0x01, 0x09, 0x03, 0xF0, 0xFF] ++ rep 6 0 ++ rep 6 0 ++ [0xF8, 0x7F])
    at8 (one (st c (only .a 8))) 65528 = bytes (rep 6 0 ++ [0xF8, 0x7F]) ∧
      (one (st c (only .a 9))).engine = .faulted (.memoryOutOfBounds 65529) := by decide

/-- B1, B2, B5: the budget is checked before the fetch. -/
theorem test_step_budget :
    (one (budget (st n1) 0)).engine = .faulted (.stepBudgetExceeded 0) ∧
      (one (budget (st n1) 1)).engine = .halted ∧
      (one (budget (st (bytes [0x02])) 0)).engine = .faulted (.stepBudgetExceeded 0) := by decide

/-- RI7: a negative instruction pointer. -/
theorem test_step_RI7 :
    let t := two (st (bytes ([0x01, 0x01, 0x00, 0xFB] ++ rep 7 0xFF)))
    t.engine = .faulted (.codeBufferOverrun (-5)) ∧ t.x.ip = -5 := by decide

/-- K4, K5, K6, K9 of 2.7. -/
theorem test_construct :
    let k := fun (img : List Nat) (ss : Nat) =>
      match construct ⟨65536, ss, none, [], bytes img⟩ with
      | .error c => Sum.inl c
      | .ok s => Sum.inr (s.cfg.dataSize, s.code.length)
    k [1, 0, 1, 0, 0] 0 = .inl .layoutInvariant ∧ k [0, 0, 1, 0, 0] 0 = .inr (65536, 1) ∧
      k [0, 0, 1, 0, 0] 1 = .inl .layoutInvariant ∧
      k [0xFF, 0xFF, 0xFF, 0xFF, 0] 0 = .inl .layoutInvariant ∧
      k [0, 0, 0] 0 = .inl .headerTruncated := by decide

/-- The placed instruction runs first after reset (notes/assumptions/4.md). -/
theorem test_withFetchWord :
    (one (State.reset.withFetchWord 8 0)).engine = .halted ∧
      (one (State.reset.withFetchWord 32 0x03040301)).x.ip = 4 := by decide

/-! ### Witnesses: the hypotheses of RunsAs -/

/-- The hypotheses of RunsAs for an encoding: the bytes at `IP`, the buffer cut after `k` of them, and a spent
budget. -/
def RunsAsMet (bs : List Byte) (k : Nat) : Prop :=
  (st bs).Ready ∧ (st bs).CodeAtIp bs ∧
    k < bs.length ∧ (st (bs.take k)).Ready ∧ (st (bs.take k)).CodeEndsAfter (bs.take k) ∧
    (budget (st bs) 0).engine = .running ∧ (budget (st bs) 0).cfg.maxSteps = some 0 ∧
    0 ≤ (budget (st bs) 0).steps

theorem runsAsMet {bs : List Byte} {k : Nat} (h : k < bs.length) : RunsAsMet bs k :=
  ⟨⟨rfl, rfl⟩, ⟨Int.le_refl 0, List.prefix_rfl⟩, h, ⟨rfl, rfl⟩,
    ⟨Int.le_refl 0, Nat.zero_le _, rfl⟩, rfl, rfl, Nat.le_refl 0⟩

/-- Register bytes at the ends of both ranges. -/
def RegBytesMet : Prop :=
  (0#8).toNat = Reg.ip.index ∧ (7#8).toNat = Reg.e.index ∧ (7#8).toNat ≤ 7 ∧ 7 < (8#8).toNat ∧
    7 < (255#8).toNat

theorem regBytesMet : RegBytesMet := by unfold RegBytesMet; decide

/-- Effective addresses at the ends of the buffer, on both sides. -/
def AddressesMet : Prop :=
  (st []).InBounds ((st []).ea .a 0) ∧ (st [] (only .a 65528)).InBounds
      ((st [] (only .a 65528)).ea .a 0) ∧
    ¬(st [] (only .a 65528)).InBounds ((st [] (only .a 65528)).ea .a 1) ∧
    ¬(st []).InBounds ((st []).ea .a (-1))

theorem addressesMet : AddressesMet := by unfold AddressesMet State.InBounds; decide

theorem test_witness_NopHaltsInPlace : RunsAsMet n1 0 := runsAsMet (by decide)

theorem test_witness_MovRiLoadsImmediate : RunsAsMet ri1 10 ∧ RunsAsMet ri5 0 ∧ RegBytesMet :=
  ⟨runsAsMet (by decide), runsAsMet (by decide), regBytesMet⟩

theorem test_witness_MovFiLoadsPattern : RunsAsMet fi1 10 ∧ RegBytesMet :=
  ⟨runsAsMet (by decide), regBytesMet⟩

theorem test_witness_MovRrCopiesRegister : RunsAsMet rr1 3 ∧ RegBytesMet :=
  ⟨runsAsMet (by decide), regBytesMet⟩

theorem test_witness_MovLdLoadsInteger : RunsAsMet ld1 11 ∧ RegBytesMet ∧ AddressesMet :=
  ⟨runsAsMet (by decide), regBytesMet, addressesMet⟩

theorem test_witness_MovStStoresInteger : RunsAsMet st1 11 ∧ RegBytesMet ∧ AddressesMet :=
  ⟨runsAsMet (by decide), regBytesMet, addressesMet⟩

theorem test_witness_MovStiStoresImmediate : RunsAsMet sti1 18 ∧ RegBytesMet ∧ AddressesMet :=
  ⟨runsAsMet (by decide), regBytesMet, addressesMet⟩

theorem test_witness_MovFldLoadsPattern : RunsAsMet fld1 11 ∧ RegBytesMet ∧ AddressesMet :=
  ⟨runsAsMet (by decide), regBytesMet, addressesMet⟩

theorem test_witness_MovFstStoresPattern : RunsAsMet fst1 11 ∧ RegBytesMet ∧ AddressesMet :=
  ⟨runsAsMet (by decide), regBytesMet, addressesMet⟩

theorem test_witness_MovFstiStoresPattern : RunsAsMet fsti1 18 ∧ RegBytesMet ∧ AddressesMet :=
  ⟨runsAsMet (by decide), regBytesMet, addressesMet⟩

/-- StoredWord's own hypothesis, a canonical memory that is not empty. -/
theorem test_witness_StoredWord : Mem.wf (stMem [] RegFile.zero 8 (bytes [1, 2, 3])).mem = true := by
  decide

/-! ### Witnesses: the families -/

theorem test_witness_RegisterFormsTouchOneRegister :
    (st []).engine = .running ∧
      (memOperand (.movRI 7#8 1) = none ∧ destReg (.movRI 7#8 1) = some (.int, 7#8)) ∧
      (memOperand (.movFI 8#8 1) = none ∧ destReg (.movFI 8#8 1) = some (.float, 8#8)) ∧
      (memOperand (.movRR 0#8 1) = none ∧ destReg (.movRR 0#8 1) = some (.int, 0#8)) := by
  decide

theorem test_witness_LoadAfterStoreReturnsStoredBits :
    let s := st [] (only .a 65528)
    let i := Instr.movSTI ⟨3#8, 0⟩ 7
    Mem.wf s.mem = true ∧ s.storeAddr i = some 65528 ∧ s.storeValue i = some 7 ∧
      s.InBounds 65528 ∧ (4#8).toNat = Reg.b.index ∧ (3#8).toNat = Reg.a.index ∧
      ∃ t, exec i s = .next t ∧ t.ea .a 0 = 65528 :=
  ⟨rfl, rfl, rfl, ⟨by decide, by decide⟩, rfl, rfl, _, rfl, rfl⟩

/-- A load; a store that runs at the last address; one whose address, and one whose register, stops it. -/
theorem test_witness_NoFormReadsAndWritesMemory :
    storesMemory (.movLD 0 ⟨0, 0⟩) = false ∧ storesMemory (.movSTI ⟨3#8, 0⟩ 7) = true ∧
      (st [] (only .a 65528)).storeAddr (.movSTI ⟨3#8, 0⟩ 7) = some 65528 ∧
      (st [] (only .a 65528)).storeValue (.movSTI ⟨3#8, 0⟩ 7) = some 7 ∧
      (st [] (only .a 65528)).InBounds 65528 ∧ ¬(st [] (only .a 65529)).InBounds 65529 ∧
      (st [] (only .a 65529)).storeAddr (.movSTI ⟨3#8, 0⟩ 7) = some 65529 ∧
      (st []).storeValue (.movST ⟨3#8, 0⟩ 8#8) = none := by
  unfold State.InBounds
  decide

theorem test_witness_InstructionFrame :
    let s := st [] (only .a 65528)
    (∃ t, exec (.movST ⟨3#8, 0⟩ 3#8) s = .next t) ∧
      s.storeAddr (.movST ⟨3#8, 0⟩ 3#8) = some 65528 ∧ ((65527 : Nat) : Int) < 65528 ∧
      (∃ t, exec (.movRI 7#8 1) s = .next t) ∧
      destReg (.movRI 7#8 1) ≠ some (.int, BitVec.ofNat 8 Reg.d.index) :=
  ⟨⟨_, rfl⟩, rfl, by decide, ⟨_, rfl⟩, by decide⟩

theorem test_witness_InstructionsFaultOnlyOnTheirOperands :
    let s := st [] (only .a 65529)
    s.engine = .running ∧
      (∃ t, exec (.movRI 8#8 1) s = .next t ∧
        t.engine = .faulted (.registerIndexOutOfRange 8#8)) ∧
      ∃ t, exec (.movFST ⟨3#8, 0⟩ 7#8) s = .next t ∧
        t.engine = .faulted (.memoryOutOfBounds 65529) :=
  ⟨rfl, ⟨_, rfl, rfl⟩, _, rfl, rfl⟩

/-- LD7 and LD8: above and below the `i64` range. -/
theorem test_witness_EffectiveAddressNeverWraps :
    (st []).cfg.memSize ≤ Config.maxSize ∧
      2 ^ 63 - 1 <
        (st [] (only .a 0x7FFFFFFFFFFFFFFF#64)).ea .a 0x7FFFFFFFFFFFFFFF#64 ∧
      (st [] (only .a 0x8000000000000000#64)).ea .a 0x8000000000000000#64 < -2 ^ 63 := by decide

theorem test_witness_BoundsCheckIsExact :
    ((65529 : Int) + 8 > (st []).cfg.memSize ∧ (-1 : Int) < 0) ∧
      ¬((65528 : Int) < 0 ∨ (65528 : Int) + 8 > (st []).cfg.memSize) ∧
      ¬((0 : Int) < 0 ∨ (0 : Int) + 8 > (st []).cfg.memSize) ∧
      (st []).cfg.memSize = 65536 ∧
      { (st []) with cfg := { (st []).cfg with memSize := 7 } }.cfg.memSize < 8 ∧
      (st [] (only .a 65529)).storeAddr (.movSTI ⟨3#8, 0⟩ 1) = some 65529 ∧
      ∃ t, exec (.movSTI ⟨3#8, 0⟩ 1) (st [] (only .a 65529)) = .next t :=
  ⟨by decide, by decide, by decide, rfl, by decide, rfl, _, rfl⟩

theorem test_witness_WriteToIpIsAJump :
    (7#8).toNat = Reg.e.index ∧ AddressesMet ∧
      ((st []).Ready ∧ ((st []).code.length : Int) ≤ (st []).x.ip.toInt) ∧
      ((st n1 (only .ip (-5))).Ready ∧ (st n1 (only .ip (-5))).x.ip.toInt < 0) :=
  ⟨rfl, addressesMet, ⟨⟨rfl, rfl⟩, by decide⟩, ⟨rfl, rfl⟩, by decide⟩

theorem test_witness_ReadOfIpGivesOwnOffset :
    RegBytesMet ∧ AddressesMet ∧ Mem.wf (st [] (only .a 65528)).mem = true :=
  ⟨regBytesMet, addressesMet, rfl⟩

theorem test_witness_RegistersHoldLastWrite : 7 < (8#8).toNat ∧ 7 < (255#8).toNat := by decide

theorem test_witness_RegisterFieldComparedWhole :
    validate 7#8 = .ok .e ∧ validate 8#8 = .error (.registerIndexOutOfRange 8#8) := by decide

/-! ### Witnesses: encoding and decoding -/

theorem test_witness_DecodeInvertsEncode :
    decodeAt (bytes [0xEE] ++ rr1 ++ bytes [0xEE]) 1 = .ok (.movRR 4#8 3#8, 5) := by decide

/-- One instruction of each length. -/
theorem test_witness_FirstBytesFixTheLength :
    decodeAt n1 0 = .ok (.nop, 1) ∧ decodeAt rr1 0 = .ok (.movRR 4#8 3#8, 4) ∧
      decodeAt ri1 0 = .ok (.movRI 3#8 42#64, 11) ∧
      decodeAt ld1 0 = .ok (.movLD 4#8 ⟨3#8, 8#64⟩, 12) ∧
      decodeAt sti1 0 = .ok (.movSTI ⟨3#8, 8#64⟩ (-2), 19) := by decide

theorem test_witness_OpcodeTableSelectsTheForm :
    (∃ r ∈ opcodeTable, 0x0901#16 &&& r.mask = r.pattern) ∧
      selectRow 0x0A01#16 = none ∧ (selectRow 0xFF00#16).map (·.form) = some .nop := by decide

theorem test_witness_CodeReadAllOrNothing :
    ((-1 : Int) < 0) ∧ ((1 : Int) + (1 : Nat) > n1.length) ∧
      ¬((0 : Int) < 0 ∨ (0 : Int) + (1 : Nat) > n1.length) := by decide

theorem test_witness_UnknownOpcodeFaults :
    (st [2#8]).Ready ∧ (st [2#8]).CodeAtIp [2#8] ∧ 2 ≤ (2#8).toNat ∧
      (st [255#8]).Ready ∧ (st [255#8]).CodeAtIp [255#8] ∧ 2 ≤ (255#8).toNat :=
  ⟨⟨rfl, rfl⟩, ⟨by decide, List.prefix_rfl⟩, by decide, ⟨rfl, rfl⟩,
    ⟨by decide, List.prefix_rfl⟩, by decide⟩

theorem test_witness_UnknownModeFaults :
    ((st [1#8, 0#8]).Ready ∧ (st [1#8, 0#8]).CodeAtIp [1#8, 0#8] ∧ (0#8).toNat = 0) ∧
      (st [1#8, 10#8]).Ready ∧ (st [1#8, 10#8]).CodeAtIp [1#8, 10#8] ∧ 10 ≤ (10#8).toNat :=
  ⟨⟨⟨rfl, rfl⟩, ⟨by decide, List.prefix_rfl⟩, by decide⟩, ⟨rfl, rfl⟩,
    ⟨by decide, List.prefix_rfl⟩, by decide⟩

/-! ### Witnesses: the step -/

/-- Also at the last value of the counter. -/
theorem test_witness_StepRunsDecodedInstruction :
    (st ri1).Ready ∧ decodeAt (st ri1).code (st ri1).x.ip.toInt = .ok (.movRI 3#8 42#64, 11) ∧
      { (st ri1) with steps := BitVec.allOnes 64 }.Ready ∧
      { (st ri1) with steps := BitVec.allOnes 64 }.steps = BitVec.allOnes 64 :=
  ⟨⟨rfl, rfl⟩, by decide, ⟨rfl, rfl⟩, rfl⟩

theorem test_witness_TerminalStatesAbsorb :
    (st n1).halt.engine ≠ .running ∧ ((st n1).raise (.unknownOpcode 2#8)).engine ≠ .running := by
  decide

theorem test_witness_NoReturnFromAFault :
    let s := (st n1).raise (.unknownOpcode 2#8)
    s.engine = .faulted (.unknownOpcode 2#8) ∧
      hostMove (.atRest s) .readStatus = .ok (.atRest s, some (.status (.faulted 1 2))) ∧
      hostMove (.atRest s) .destroy = .ok (.noInstance, some .nothing) := ⟨rfl, rfl, rfl⟩

theorem test_witness_BudgetSpentFaultsBeforeFetch :
    let s := budget (st n1) 0
    s.engine = .running ∧ s.cfg.maxSteps = some 0 ∧ 0 ≤ s.steps ∧
      ∃ t, step s = .next t ∧ t.engine = .faulted (.stepBudgetExceeded 0) :=
  ⟨rfl, rfl, Nat.le_refl 0, _, rfl, rfl⟩

theorem test_witness_CounterCountsStepsBegun :
    ((∃ t, step (budget (st n1) 1) = .next t) ∧ (budget (st n1) 1).Ready ∧
        (budget (st n1) 1).cfg.maxSteps = some 1) ∧
      (∃ t, step { (st n1) with steps := BitVec.allOnes 64 } = .next t) ∧
      (∃ t, step (st n1).halt = .next t) ∧ ¬(st n1).halt.Ready ∧ ¬(budget (st n1) 0).Ready :=
  ⟨⟨⟨_, rfl⟩, ⟨rfl, rfl⟩, rfl⟩, ⟨_, rfl⟩, ⟨_, rfl⟩, (fun h => nomatch h.1), (fun h => nomatch h.2)⟩

/-- A step that halts, one that faults, and one that goes on to a register other than `IP`. -/
theorem test_witness_IpAfterAStep :
    (st n1).code.length ≤ Config.maxSize ∧ (st n1).engine = .running ∧
      (∃ t, step (st n1) = .next t ∧ t.engine ≠ .running) ∧
      (∃ t, step (st []) = .next t ∧ t.engine ≠ .running) ∧
      ∃ t, step (st rr1) = .next t ∧ t.engine = .running ∧
        destReg (.movRR 4#8 3#8) ≠ some (.int, 0#8) :=
  ⟨by decide, rfl, ⟨_, rfl, by decide⟩, ⟨_, rfl, by decide⟩, _, rfl, rfl, by decide⟩

/-- Each item of the priority list, and no fault. -/
theorem test_witness_StepReportsTheFirstFault :
    [budget (st n1) 0, st [], st [2#8], st [1#8], st [1#8, 10#8], st [1#8, 3#8, 9#8],
      st [1#8, 3#8, 9#8, 8#8], st ld1 (only .a 65521), st rr1].map State.firstFault =
    [some (.stepBudgetExceeded 0), some (.codeBufferOverrun 0), some (.unknownOpcode 2#8),
      some (.codeBufferOverrun 1), some (.unknownMode 10#8), some (.codeBufferOverrun 3),
      some (.registerIndexOutOfRange 9#8), some (.memoryOutOfBounds 65529), none] := by decide

theorem test_witness_FaultsArePrecise :
    (st ri1).engine = .running ∧ ∃ t, runSteps 2 (st ri1) = .next t ∧
      t.engine = .faulted (.codeBufferOverrun 11) := ⟨rfl, _, rfl, rfl⟩

theorem test_witness_CodeIsReadOnlyAndUnreadable : ∃ t, step (st sti1) = .next t := ⟨_, rfl⟩

theorem test_witness_RegionSizesInfluenceNothing : ∃ t, step (st sti1) = .next t := ⟨_, rfl⟩

/-- A state with memory, code and a budget not spent, and one at its budget, faulted. -/
theorem test_witness_StepKeepsInvariant :
    (budget (stMem sti1 (only .a 256) 65535 [1#8]) 1).Inv ∧
      (∃ t, step (budget (stMem sti1 (only .a 256) 65535 [1#8]) 1) = .next t) ∧
      ((budget (st n1) 0).raise (.stepBudgetExceeded 0)).Inv := by
  refine ⟨⟨rfl, rfl, by decide, by decide, by decide, ?_, ?_⟩, ⟨_, rfl⟩,
    ⟨rfl, rfl, by decide, by decide, by decide, ?_, ?_⟩⟩
  · intro n h; cases h; decide
  · intro r h; cases h
  · intro n h; cases h; decide
  · intro r h; cases h; exact ⟨rfl, Nat.le_refl 0⟩

theorem test_witness_BudgetEndsEveryExecution :
    (budget (st ri5) 3).cfg.maxSteps = some 3 ∧
      (budget (st ri5) (BitVec.allOnes 64)).cfg.maxSteps = some (BitVec.allOnes 64) := ⟨rfl, rfl⟩

/-! ### Witnesses: construction and the host -/

/-- Parameters with an image and the default configuration. -/
def params (img : List Byte) : Params := ⟨65536, 0, none, [], img⟩

/-- K1, K4, K5: one byte too many, and the last `DATA_SIZE` that fits. -/
theorem test_witness_ConstructionChecksInOrder :
    (params (bytes [0, 0, 0])).image.length < 4 ∧
      (4 ≤ (params (bytes [1, 0, 1, 0])).image.length ∧
        (le32 ((params (bytes [1, 0, 1, 0])).image.take 4)).toNat + 0 > 65536) ∧
      4 ≤ (params (bytes [0, 0, 1, 0])).image.length ∧
        (le32 ((params (bytes [0, 0, 1, 0])).image.take 4)).toNat + 0 ≤ 65536 := by decide

theorem test_witness_ConstructionLeavesTheResetState :
    (∃ s, construct (params (bytes [0, 0, 1, 0, 0])) = .ok s) ∧
      (params (bytes [0, 0, 1, 0, 0])).wf = true := ⟨⟨_, rfl⟩, by decide⟩

theorem test_witness_ExecutionRequestResetsRegisters :
    (∀ r, (st n1).halt.engine ≠ .faulted r) ∧ (∀ r, (st n1).engine ≠ .faulted r) ∧
      ((st n1).raise (.unknownMode 0#8)).engine = .faulted (.unknownMode 0#8) :=
  ⟨(fun _ h => nomatch h), (fun _ h => nomatch h), rfl⟩

theorem test_witness_HostMovesFollowTheProtocol :
    (∃ s, construct (params (bytes [0, 0, 0, 0])) = .ok s) ∧
      construct (params []) = .error .headerTruncated ∧
      (∀ p, HostAction.execute ≠ .construct p) ∧
      ((st n1).raise (.unknownMode 0#8)).engine = .faulted (.unknownMode 0#8) ∧
      (∀ r, (st n1).engine ≠ .faulted r) :=
  ⟨⟨_, rfl⟩, rfl, (fun _ h => nomatch h), rfl, (fun _ h => nomatch h)⟩

/-- RI11, `MOV.RI IP, #0`: a run that never ends without a budget. -/
def ri11 : List Byte := bytes ([0x01, 0x01, 0x00] ++ rep 8 0)

theorem ri11_runs (n : Nat) (k : BitVec 64) (t : State)
    (h : runSteps n { st ri11 with steps := k } = .next t) : t.engine = .running := by
  induction n generalizing k with
  | zero => cases h; rfl
  | succ n ih =>
    exact ih (if k = BitVec.allOnes 64 then Config.stepsOverflow k else k + 1) h

/-- A run that halts (N1), one that faults (D1), one that never ends, and one with a budget (P6). -/
theorem test_witness_ExecuteReturnsWhenTheRunEnds :
    (∀ r, (st n1).engine ≠ .faulted r) ∧
      awaitAnswer 1 (.executing (st n1)) = some (.atRest (one (st n1)), .outcome .halted) ∧
      awaitAnswer 1 (.executing (st [])) =
        some (.atRest (one (st [])), .outcome (.faulted .codeBufferOverrun 0)) ∧
      (∀ r, (st ri11).engine ≠ .faulted r) ∧
      (∀ n t, runSteps n (st ri11).requestReset = .next t → t.engine = .running) ∧
      (budget (st ri11) 3).cfg.maxSteps = some 3 :=
  ⟨(fun _ h => nomatch h), rfl, rfl, (fun _ h => nomatch h), fun n t => ri11_runs n 0 t, rfl⟩

theorem test_witness_PlacedInstructionRunsNext :
    decodeTableWord 16 0x0401 = some (.movLD 0 ⟨0, 0⟩) := by decide

end Sys2Proof.Tests
end

section
/-!
PROOFS. The state and what every instruction and step leaves of it (spec/10_state.md): the frame of the ten
instructions, the counter, `IP` after a step, and what a step reads of the configuration.
-/

namespace Sys2Proof

open Machine

/-! ### Register bytes and register writes -/

/-- The byte that names a register is its index (R10, R13). -/
theorem Reg.eq_ofNat_index_of_ofByte {b : Byte} {r : Reg} (h : Reg.ofByte b = some r) :
    b = BitVec.ofNat 8 r.index := by
  have hb := (Reg.ofByte_eq_some b r).1 h
  rw [← hb, BitVec.ofNat_toNat, BitVec.setWidth_eq]

@[simp] theorem Reg.ofNat_index_eq_zero (r : Reg) : BitVec.ofNat 8 r.index = 0#8 ↔ r = .ip := by
  cases r <;> decide

namespace Machine

/-- What a write of one register leaves in each register of both files (R77). -/
theorem State.getReg_setReg (s : State) (k k' : RegKind) (r r' : Reg) (w : Word) :
    (s.setReg k r w).getReg k' r' = if k' = k ∧ r' = r then w else s.getReg k' r' := by
  cases k <;> cases k' <;> simp [RegFile.get_set]

@[simp] theorem State.setReg_engine (s : State) (k : RegKind) (r : Reg) (w : Word) :
    (s.setReg k r w).engine = s.engine := by cases k <;> rfl

@[simp] theorem State.setReg_steps (s : State) (k : RegKind) (r : Reg) (w : Word) :
    (s.setReg k r w).steps = s.steps := by cases k <;> rfl

@[simp] theorem State.setReg_mem (s : State) (k : RegKind) (r : Reg) (w : Word) :
    (s.setReg k r w).mem = s.mem := by cases k <;> rfl

@[simp] theorem State.setReg_code (s : State) (k : RegKind) (r : Reg) (w : Word) :
    (s.setReg k r w).code = s.code := by cases k <;> rfl

@[simp] theorem State.setReg_cfg (s : State) (k : RegKind) (r : Reg) (w : Word) :
    (s.setReg k r w).cfg = s.cfg := by cases k <;> rfl

/-- The sequential update of `IP` changes no other register. -/
theorem State.getReg_advance_of_ne (s : State) (n : Nat) {k : RegKind} {r : Reg}
    (h : (k, r) ≠ (.int, .ip)) : (s.advance n).getReg k r = s.getReg k r := by
  cases k with
  | int => exact RegFile.get_set_of_ne _ _ (by simpa using h)
  | float => rfl

@[simp] theorem State.getReg_reset (k : RegKind) (r : Reg) : State.reset.getReg k r = 0 := by
  cases k <;> exact RegFile.get_zero r

/-! ### What an instruction can leave -/

/-- The next state of an instruction: halted (NOP), faulted, or `IP` advanced and one effect committed, on the
destination register or on the 8 bytes at the store address (R76). -/
theorem exec_next_cases {i : Instr} {s t : State} (h : exec i s = .next t) :
    (i = .nop ∧ t = s.halt) ∨ (∃ r, t = s.raise r) ∨
      (∃ k p w, destReg i = some (k, BitVec.ofNat 8 p.index) ∧
        t = (s.advance i.length).setReg k p w) ∨
      ∃ addr w, destReg i = none ∧ s.storeAddr i = some addr ∧ s.InBounds addr ∧
        t = (s.advance i.length).storeWord addr.toNat w := by
  rcases exec_inversion i s with ⟨hi, e⟩ | ⟨_, b, -, -, e⟩ | ⟨m, rb, -, -, -, e⟩ |
    ⟨k, b, p, w, hd, -, hp, e⟩ | ⟨m, rb, w, hd, -, -, -, ha, -, hin, e⟩ <;>
    obtain rfl := Host.Outcome.next.inj (e.symm.trans h)
  · exact .inl ⟨hi, rfl⟩
  · exact .inr (.inl ⟨_, rfl⟩)
  · exact .inr (.inl ⟨_, rfl⟩)
  · exact .inr (.inr (.inl ⟨k, p, w, by rw [hd, Reg.eq_ofNat_index_of_ofByte hp], rfl⟩))
  · exact .inr (.inr (.inr ⟨_, w, hd, ha, hin, rfl⟩))

section Frame

variable {i : Instr} {s t : State} (h : exec i s = .next t)
include h

/-- No instruction changes the counter, the code buffer or the configuration. -/
theorem exec_steps_code_cfg : t.steps = s.steps ∧ t.code = s.code ∧ t.cfg = s.cfg := by
  rcases exec_next_cases h with ⟨-, rfl⟩ | ⟨r, rfl⟩ | ⟨k, p, w, -, rfl⟩ | ⟨a, w, -, -, -, rfl⟩ <;>
    simp

/-- No instruction changes a register but its destination and `IP` (R17). -/
theorem exec_getReg_of_not_dest {k : RegKind} {r : Reg} (hip : (k, r) ≠ (.int, .ip))
    (hd : destReg i ≠ some (k, BitVec.ofNat 8 r.index)) : t.getReg k r = s.getReg k r := by
  rcases exec_next_cases h with ⟨-, rfl⟩ | ⟨_, rfl⟩ | ⟨k', p, w, hd', rfl⟩ | ⟨a, w, -, -, -, rfl⟩
  · cases k <;> rfl
  · cases k <;> rfl
  · have hne : ¬(k = k' ∧ r = p) := by
      rintro ⟨rfl, rfl⟩
      exact hd hd'
    rw [State.getReg_setReg, if_neg hne, State.getReg_advance_of_ne s _ hip]
  · rw [← State.getReg_advance_of_ne s i.length hip]
    cases k <;> rfl

/-- No instruction changes a byte outside the 8 bytes at the address it stores to (R17). -/
theorem exec_readByte_of_not_stored {b : Nat}
    (hb : ∀ addr, s.storeAddr i = some addr → (b : Int) < addr ∨ addr + 8 ≤ b) :
    Mem.readByte t.mem b = Mem.readByte s.mem b := by
  rcases exec_next_cases h with ⟨-, rfl⟩ | ⟨_, rfl⟩ | ⟨k, p, w, -, rfl⟩ |
    ⟨addr, w, -, ha, ⟨h0, -⟩, rfl⟩
  · rfl
  · rfl
  · rw [State.setReg_mem, State.advance_mem]
  · have hout := hb addr ha
    rw [State.readByte_storeWord_of_not_mem _ _ (by omega), State.advance_mem]

/-- Only NOP, which halts, and a fault change the engine. -/
theorem exec_engine_cases :
    t.engine = s.engine ∨ (i = .nop ∧ t.engine = .halted) ∨ ∃ r, t.engine = .faulted r := by
  rcases exec_next_cases h with ⟨hi, rfl⟩ | ⟨r, rfl⟩ | ⟨k, p, w, -, rfl⟩ | ⟨a, w, -, -, -, rfl⟩
  · exact .inr (.inl ⟨hi, rfl⟩)
  · exact .inr (.inr ⟨r, rfl⟩)
  · exact .inl (by simp)
  · exact .inl (by simp)

/-- Where an instruction of a running engine stops the engine, it leaves `IP`; where it does not, it is
a MOV, and `IP` is advanced by the length unless integer register 0 is the destination (R15, D2). -/
theorem exec_ip_cases (hs : s.engine = .running) :
    (t.engine ≠ .running ∧ t.x.ip = s.x.ip) ∨
      (t.engine = .running ∧ i ≠ .nop ∧
        (destReg i ≠ some (.int, 0#8) → t.x.ip = s.x.ip + BitVec.ofNat 64 i.length)) := by
  rcases exec_next_cases h with ⟨-, rfl⟩ | ⟨r, rfl⟩ | ⟨k, p, w, hd, rfl⟩ | ⟨a, w, -, ha, -, rfl⟩
  · exact .inl ⟨by simp, rfl⟩
  · exact .inl ⟨by simp, rfl⟩
  · refine .inr ⟨by simpa using hs, ?_, fun hne => ?_⟩
    · rintro rfl
      cases hd
    · cases k with
      | float => rfl
      | int =>
        have hp : p ≠ .ip := fun hp => hne (by rw [hd, (Reg.ofNat_index_eq_zero p).2 hp])
        exact RegFile.set_ip_of_ne _ _ hp
  · refine .inr ⟨by simpa using hs, ?_, fun _ => rfl⟩
    rintro rfl
    cases ha

end Frame

/-! ### What a step does, an equation per case -/

section StepEquations

variable {s : State}

/-- A terminal state is left as it is (R79). -/
theorem step_of_not_running (h : s.engine ≠ .running) : step s = .next s := by
  cases he : s.engine with
  | running => exact absurd he h
  | halted => simp [step, he]
  | faulted r => simp [step, he]

/-- A spent budget faults before the fetch (R72). -/
theorem step_of_budgetFault {r : FaultRecord} (he : s.engine = .running)
    (hb : s.budgetFault = some r) : step s = .next (s.raise r) := by simp [step, he, hb]

/-- A byte stream with no instruction at `IP` faults (R71, R73, R74). -/
theorem step_of_decode_error {e : DecodeFault} (hr : s.Ready)
    (hd : decodeAt s.code s.x.ip.toInt = .error e) :
    step s = .next (s.countStep.raise (recordOf e)) := by
  simp [step, State.fetch, hr.1, hr.2, hd]

/-- The instruction decoded at `IP` runs (R70). -/
theorem step_of_decode_ok {i : Instr} {cur : Int} (hr : s.Ready)
    (hd : decodeAt s.code s.x.ip.toInt = .ok (i, cur)) : step s = exec i s.countStep := by
  simp [step, State.fetch, hr.1, hr.2, hd]

end StepEquations

/-! ### What a step does to the counter -/

/-- A step that passes the budget check ends with the counter advanced once (R70, R72). -/
theorem step_steps_of_ready {s t : State} (h : step s = .next t) (hr : s.Ready) :
    t.steps = s.countStep.steps := by
  rcases step_cases s with ⟨he, -⟩ | ⟨-, r, hb, -⟩ | ⟨-, e, -, hs⟩ | ⟨-, i, cur, -, hs⟩
  · exact absurd hr.1 he
  · exact absurd (hr.2.symm.trans hb) (by simp)
  · rw [← Host.Outcome.next.inj (hs.symm.trans h), State.raise_steps]
  · exact (exec_steps_code_cfg (hs.symm.trans h)).1

/-- A step in a terminal state, or one whose budget is spent, leaves the counter (R72, R79). -/
theorem step_steps_of_not_ready {s t : State} (h : step s = .next t) (hr : ¬s.Ready) :
    t.steps = s.steps := by
  rcases step_cases s with ⟨-, hs⟩ | ⟨-, r, -, hs⟩ | ⟨hr', -⟩ | ⟨hr', -⟩
  · rw [← Host.Outcome.next.inj (hs.symm.trans h)]
  · rw [← Host.Outcome.next.inj (hs.symm.trans h), State.raise_steps]
  · exact absurd hr' hr
  · exact absurd hr' hr

/-- Within a budget the counter has room to advance, and does not pass the budget (R20). -/
theorem State.Ready.countStep_steps_le {s : State} {n : BitVec 64} (hr : s.Ready)
    (hn : s.cfg.maxSteps = some n) :
    s.countStep.steps.toNat = s.steps.toNat + 1 ∧ s.countStep.steps ≤ n := by
  have hlt : s.steps < n := State.budgetFault_eq_none.1 hr.2 n hn
  have hne : s.steps ≠ BitVec.allOnes 64 := by
    intro h
    rw [h] at hlt
    exact absurd hlt BitVec.not_allOnes_lt
  rw [State.countStep_steps, if_neg hne]
  bv_omega

/-! ### The cursor after a decoded instruction -/

end Machine

/-- A field that is read takes its kind's width and ends inside the code buffer (R38, R54). -/
theorem OperandKind.read_ok {code : List Byte} {k : OperandKind} {v : k.Value} {cur cur' : Int}
    (hcur : cur ≤ code.length) (h : k.read code cur = .ok (v, cur')) :
    cur' = cur + k.width ∧ cur' ≤ code.length := by
  cases k with
  | intReg | floatReg =>
    obtain ⟨-, hle, rfl⟩ := readByte_ok h
    exact ⟨rfl, hle⟩
  | int64Immediate | float64Immediate =>
    obtain ⟨-, hle, rfl⟩ := readInt64_ok h
    exact ⟨rfl, hle⟩
  | none =>
    obtain rfl : cur = cur' := by simpa [OperandKind.read] using h
    exact ⟨by simp [OperandKind.width], hcur⟩
  | memoryIndirect =>
    rw [OperandKind.read] at h
    split at h
    · cases h
    · next base cur1 hb =>
      split at h
      · cases h
      · next off cur2 ho =>
        obtain ⟨-, -, rfl⟩ := readByte_ok hb
        obtain ⟨-, hle, rfl⟩ := readInt64_ok ho
        obtain rfl : cur + 1 + 8 = cur' := (Prod.mk.inj (Except.ok.inj h)).2
        exact ⟨by simp only [OperandKind.width]; omega, hle⟩

/-- The fields that are read take their widths and end inside the code buffer (R74). -/
theorem decodeOperands_ok {code : List Byte} {ks : List OperandKind} {vs : Operands ks}
    {cur cur' : Int} (hcur : cur ≤ code.length)
    (h : decodeOperands code ks cur = .ok (vs, cur')) :
    cur' = cur + (ks.map OperandKind.width).sum ∧ cur' ≤ code.length := by
  induction ks generalizing cur with
  | nil =>
    obtain rfl : cur = cur' := by simpa [decodeOperands] using h
    exact ⟨by simp, hcur⟩
  | cons k ks ih =>
    rw [decodeOperands] at h
    split at h
    · cases h
    · next v cur1 hk =>
      split at h
      · cases h
      · next vs' cur2 hks =>
        obtain rfl : cur2 = cur' := (Prod.mk.inj (Except.ok.inj h)).2
        obtain ⟨rfl, hle⟩ := OperandKind.read_ok hcur hk
        obtain ⟨rfl, hle'⟩ := ih hle hks
        refine ⟨?_, hle'⟩
        rw [List.map_cons, List.sum_cons]
        omega

/-- A form the ModeTable gives has an opcode byte and a mode byte (R51, R53). -/
theorem header_length_of_lookupMode {m : Byte} {fm : Form} (h : lookupMode m = some fm) :
    fm.header.length = 2 := by
  obtain ⟨row, hrow, rfl⟩ := Option.map_eq_some_iff.1 h
  have hall : ∀ row ∈ modeTable, row.2.header.length = 2 := by decide
  exact hall row (List.mem_of_find?_eq_some hrow)

/-- Fetch and dispatch start inside the code buffer, read the form's header and end inside it (R71, R73). -/
theorem dispatchForm_ok {code : List Byte} {ip0 cur : Int} {fm : Form}
    (h : dispatchForm code ip0 = .ok (fm, cur)) :
    0 ≤ ip0 ∧ cur = ip0 + fm.header.length ∧ cur ≤ code.length := by
  rw [dispatchForm] at h
  split at h
  · cases h
  · next op cur1 hop =>
    obtain ⟨⟨h0, -⟩, hle, rfl⟩ := readByte_ok hop
    refine ⟨h0, ?_⟩
    split at h
    · cases h
    · split at h
      · split at h
        · cases h
        · next m cur2 hm =>
          obtain ⟨-, hle', rfl⟩ := readByte_ok hm
          split at h
          · cases h
          · next fm' hf =>
            cases h
            rw [header_length_of_lookupMode hf]
            omega
      · cases h
        exact ⟨rfl, hle⟩

@[simp] theorem Form.form_assemble (fm : Form) (vs : Operands fm.operandKinds) :
    (fm.assemble vs).form = fm := by cases fm <;> rfl

/-- The length of a form is its header and the widths of its operand fields (R51, R55). -/
theorem Form.length_eq (fm : Form) :
    fm.length = fm.header.length + (fm.operandKinds.map OperandKind.width).sum := by
  cases fm <;> rfl

/-- A decoded instruction starts at an offset of the code buffer, ends its own length further on, and lies
inside the buffer (R38, R55, R71). -/
theorem decodeAt_bounds {code : List Byte} {ip0 cur : Int} {i : Instr}
    (h : decodeAt code ip0 = .ok (i, cur)) :
    0 ≤ ip0 ∧ cur = ip0 + i.length ∧ cur ≤ code.length := by
  rw [decodeAt] at h
  split at h
  · cases h
  · next fm cur1 hd =>
    obtain ⟨h0, rfl, hle⟩ := dispatchForm_ok hd
    split at h
    · cases h
    · next vs cur2 ho =>
      cases h
      obtain ⟨rfl, hle'⟩ := decodeOperands_ok hle ho
      refine ⟨h0, ?_, hle'⟩
      rw [Instr.length, Form.form_assemble, Form.length_eq]
      omega

/-- An `i64` sum with a length is exact where it does not pass the largest `i64` (R15). -/
theorem toInt_add_ofNat {w : Word} {n : Nat} (h0 : 0 ≤ w.toInt) (h1 : w.toInt + n < 2 ^ 63) :
    (w + BitVec.ofNat 64 n).toInt = w.toInt + n := by
  rw [BitVec.toInt_add, BitVec.toInt_ofNat', Int.add_bmod_bmod]
  exact Int.bmod_eq_of_le (by omega) (by omega)

namespace Machine

/-! ### What a step reads of the code buffer and the configuration -/

/-- The state with another code buffer and another configuration, every other field as it was. -/
def State.withCodeCfg (s : State) (c : List Byte) (g : Configuration) : State :=
  { s with code := c, cfg := g }

section CodeCfg

variable {s : State} (c : List Byte) {g : Configuration}

/-- The end of a step reads neither the code buffer nor the configuration (R76). -/
theorem State.finish_withCodeCfg (s : State) (c : List Byte) (g : Configuration) (n : Nat)
    (o : Except FaultRecord Effect) :
    (s.withCodeCfg c g).finish n o = (s.finish n o).withCodeCfg c g := by
  cases o with
  | error r => rfl
  | ok eff =>
    cases eff with
    | writeReg k r w => cases k <;> rfl
    | store a w => rfl

/-- The bounds check reads only `MEM_SIZE` (R34). -/
theorem State.boundsCheck_withCodeCfg (hg : g.memSize = s.cfg.memSize) :
    (s.withCodeCfg c g).boundsCheck = s.boundsCheck := by
  funext addr
  simp only [State.boundsCheck, State.withCodeCfg, hg]

theorem State.load_withCodeCfg (hg : g.memSize = s.cfg.memSize) :
    (s.withCodeCfg c g).load = s.load := by
  funext k rd rb off
  rw [State.load, State.load, State.memRead, State.memRead, State.boundsCheck_withCodeCfg c hg]
  rfl

theorem State.store_withCodeCfg (hg : g.memSize = s.cfg.memSize) :
    (s.withCodeCfg c g).store = s.store := by
  funext rb off w
  rw [State.store, State.store, State.boundsCheck_withCodeCfg c hg]
  rfl

/-- The budget check reads only `MAX_STEPS` (R72). -/
theorem State.budgetFault_withCodeCfg (hg : g.maxSteps = s.cfg.maxSteps) :
    (s.withCodeCfg c g).budgetFault = s.budgetFault := by
  rw [State.budgetFault, show (s.withCodeCfg c g).cfg.maxSteps = s.cfg.maxSteps from hg]
  rfl

/-- An instruction reads of the configuration only `MEM_SIZE`, and reads no code byte (R44). -/
theorem exec_withCodeCfg (hg : g.memSize = s.cfg.memSize) {i : Instr} {t : State}
    (h : exec i s = .next t) :
    exec i (s.withCodeCfg c g) = .next (t.withCodeCfg c g) := by
  have fin : ∀ {n : Nat} {o : Except FaultRecord Effect},
      (Host.Outcome.next (s.finish n o) : Answer) = .next t →
      (Host.Outcome.next ((s.withCodeCfg c g).finish n o) : Answer) =
        .next (t.withCodeCfg c g) := by
    intro n o h
    rw [State.finish_withCodeCfg, Host.Outcome.next.inj h]
  have hl := State.load_withCodeCfg c hg
  have hs := State.store_withCodeCfg c hg
  cases i with
  | nop =>
    cases h
    rfl
  | movRI rd imm => exact fin h
  | movFI rd fimm => exact fin h
  | movRR rd rs => exact fin h
  | movLD rd src =>
    rw [exec, execMovLD, hl]
    exact fin h
  | movFLD rd src =>
    rw [exec, execMovFLD, hl]
    exact fin h
  | movST dst rs =>
    rw [exec, execMovST, hs]
    exact fin h
  | movSTI dst imm =>
    rw [exec, execMovSTI, hs]
    exact fin h
  | movFST dst rs =>
    rw [exec, execMovFST, hs]
    exact fin h
  | movFSTI dst fimm =>
    rw [exec, execMovFSTI, hs]
    exact fin h

end CodeCfg

/-- No step changes the code buffer or the configuration (R21, R22). -/
theorem step_code_cfg {s t : State} (h : step s = .next t) : t.code = s.code ∧ t.cfg = s.cfg := by
  rcases step_cases s with ⟨-, hs⟩ | ⟨-, r, -, hs⟩ | ⟨-, e, -, hs⟩ | ⟨-, i, cur, -, hs⟩
  · cases hs.symm.trans h
    exact ⟨rfl, rfl⟩
  · cases hs.symm.trans h
    exact ⟨rfl, rfl⟩
  · cases hs.symm.trans h
    exact ⟨rfl, rfl⟩
  · exact (exec_steps_code_cfg (hs.symm.trans h)).2

/-- A step reads of the configuration only `MEM_SIZE` and `MAX_STEPS` (R34, R72). -/
theorem step_withCfg {s t : State} {g : Configuration} (hm : g.memSize = s.cfg.memSize)
    (hb : g.maxSteps = s.cfg.maxSteps) (h : step s = .next t) :
    step (s.withCodeCfg s.code g) = .next (t.withCodeCfg t.code g) := by
  have hbudget := State.budgetFault_withCodeCfg s.code hb
  rw [(step_code_cfg h).1]
  rcases step_cases s with ⟨he, hs⟩ | ⟨he, r, hf, hs⟩ | ⟨⟨he, hf⟩, e, hd, hs⟩ |
    ⟨⟨he, hf⟩, i, cur, hd, hs⟩
  · cases hs.symm.trans h
    exact step_of_not_running he
  · cases hs.symm.trans h
    exact step_of_budgetFault he (hbudget.trans hf)
  · cases hs.symm.trans h
    exact step_of_decode_error ⟨he, hbudget.trans hf⟩ hd
  · exact (step_of_decode_ok (s := s.withCodeCfg s.code g) ⟨he, hbudget.trans hf⟩ hd).trans
      (exec_withCodeCfg (s := s.countStep) s.code hm (hs.symm.trans h))

/-! ### IP after a step -/

/-- `ip0 + L` does not overflow after a decode, since the instruction lies in the code buffer (R15). -/
theorem toInt_ip_add_length {s : State} {i : Instr} {cur : Int}
    (hlen : s.code.length ≤ Config.maxSize) (hd : decodeAt s.code s.x.ip.toInt = .ok (i, cur)) :
    (s.x.ip + BitVec.ofNat 64 i.length).toInt = s.x.ip.toInt + i.length := by
  obtain ⟨h0, rfl, hle⟩ := decodeAt_bounds hd
  have hmax : Config.maxSize = 2 ^ 63 - 1 := rfl
  exact toInt_add_ofNat h0 (by omega)

end Machine

/-! ### The obligations -/

/-- Settles O14: the four outcomes of an instruction, each with its frame. -/
theorem instructionFrame : Obligations.InstructionFrame := by
  intro i s t h
  obtain ⟨hsteps, hcode, hcfg⟩ := exec_steps_code_cfg h
  exact ⟨fun _ _ hip hd => exec_getReg_of_not_dest h hip hd,
    fun _ hb => exec_readByte_of_not_stored h hb, hsteps, hcode, hcfg, exec_engine_cases h⟩

/-- Settles O35: a step either passes the budget check and counts once, or leaves the counter. -/
theorem counterCountsStepsBegun : Obligations.CounterCountsStepsBegun := by
  intro s t h
  refine ⟨fun hr => step_steps_of_ready h hr, fun hr n hn => ?_, step_steps_of_not_ready h⟩
  rw [step_steps_of_ready h hr]
  exact hr.countStep_steps_le hn

/-- Settles O36: a step that stops leaves `IP`; one that goes on ran a decoded MOV, which lies in the code
buffer, so that its `ip0 + L` does not overflow. -/
theorem ipAfterAStep : Obligations.IpAfterAStep := by
  intro s t hlen hrun h
  rcases step_cases s with ⟨he, -⟩ | ⟨-, r, -, hs⟩ | ⟨-, e, -, hs⟩ | ⟨-, i, cur, hd, hs⟩
  · exact absurd hrun he
  · cases hs.symm.trans h
    exact ⟨fun _ => rfl, fun ht => by cases ht⟩
  · cases hs.symm.trans h
    exact ⟨fun _ => rfl, fun ht => by cases ht⟩
  · rcases exec_ip_cases (hs.symm.trans h) hrun with ⟨ht, hip⟩ | ⟨ht, hnop, hip⟩
    · exact ⟨fun _ => hip, fun ht' => absurd ht' ht⟩
    · refine ⟨fun ht' => absurd ht ht', fun _ => ⟨i, cur, hd, hnop, fun hdest => ?_⟩⟩
      rw [hip hdest]
      exact toInt_ip_add_length hlen hd

/-- Settles O40: a step reads of the configuration only `MEM_SIZE` and `MAX_STEPS`, and keeps all of it. -/
theorem regionSizesInfluenceNothing : Obligations.RegionSizesInfluenceNothing := by
  intro s t ds ss h
  obtain ⟨-, hcfg⟩ := step_code_cfg h
  refine ⟨hcfg, ?_⟩
  rw [hcfg]
  exact step_withCfg (g := { s.cfg with dataSize := ds, stackSize := ss }) rfl rfl h

/-- Settles O20, by the rules for a register read after a write, after reset and at a byte out of range. -/
theorem registersHoldLastWrite : Obligations.RegistersHoldLastWrite :=
  ⟨State.getReg_setReg, State.getReg_reset, rfl,
    fun b access hb => withReg_none ((Reg.ofByte_eq_none b).2 hb) access⟩

/-- Settles O42: reset has an empty memory and code buffer, no budget and a `Running` engine. -/
theorem resetMeetsInvariant : Obligations.ResetMeetsInvariant where
  memWf := rfl
  memBelow := rfl
  memSize := by decide
  codeLen := Nat.zero_le _
  layout := by decide
  budget := fun _ hn => by cases hn
  record := fun _ hr => by cases hr

end Sys2Proof
end

section
/-!
PROOFS. The memory buffer and the code buffer (spec/20_memory.md): what a load, a store and a code read give and leave,
that a form that stores does not read memory, and that no instruction reads or writes the code buffer.
-/

namespace Sys2Proof

open Machine

namespace Machine

/-! ### The accesses (R33, R34) -/

/-- The 8 bytes from `a` hold the word that a read of them gives (R32, R33). -/
theorem holdsWord_le64_readBytes (s : State) (a : Nat) :
    HoldsWord s a (le64 (Mem.readBytes s.mem a 8)) := by
  intro k hk
  have hbytes := bytes64_le64 _ (Mem.readBytes_length s.mem a 8)
  rw [← bytes64_getElem _ k (by simpa using hk), List.getElem_of_eq hbytes,
    Mem.readBytes_getElem]

/-- The store of a word at a non-negative address, in a state with the memory of `s` (R33). -/
theorem storedWord_storeWord {s u : State} {addr : Int} (hu : u.mem = s.mem) (h0 : 0 ≤ addr)
    (w : Word) : StoredWord s (u.storeWord addr.toNat w) addr w := by
  refine ⟨fun hwf k hk => State.readByte_storeWord _ w (hu ▸ hwf) k hk, fun b hb => ?_⟩
  rw [State.readByte_storeWord_of_not_mem u w (by omega), hu]

theorem State.memWrite_ok {s : State} {addr : Int} (h0 : 0 ≤ addr)
    (h1 : addr + 8 ≤ s.cfg.memSize) (w : Word) :
    s.memWrite addr w = .ok (s.storeWord addr.toNat w) := by
  rw [State.memWrite, State.boundsCheck_ok h0 h1]

theorem State.memWrite_error {s : State} {addr : Int}
    (h : addr < 0 ∨ (s.cfg.memSize : Int) < addr + 8) (w : Word) :
    s.memWrite addr w = .error (.memoryOutOfBounds addr) := by
  rw [State.memWrite, State.boundsCheck_error h]

theorem State.store_ok {s : State} {rb : Reg} {off : Word} (h : s.InBounds (s.ea rb off))
    (w : Word) : s.store rb off w = .ok (.store (s.ea rb off).toNat w) := by
  obtain ⟨h0, h1⟩ := h
  rw [State.store, State.boundsCheck_ok h0 h1]

/-! ### The memory an instruction leaves (R43) -/

/-- Every instruction has a next state. -/
theorem exists_exec_eq_next (i : Instr) (s : State) : ∃ t, exec i s = .next t := by
  rcases exec_cases i s with ⟨-, h⟩ | ⟨r, h⟩ | ⟨eff, h⟩ <;> exact ⟨_, h⟩

theorem storeAddr_eq_none (s : State) {i : Instr} (hi : storesMemory i = false) :
    s.storeAddr i = none := by
  cases i with
  | movST | movSTI | movFST | movFSTI => cases hi
  | nop | movRI | movFI | movRR | movLD | movFLD => rfl

/-- An instruction whose store address and word exist, the address in the buffer, stores that word there and
advances `IP` (R102, R103, R105, R106). -/
theorem exec_of_store {i : Instr} {s : State} {addr : Int} {w : Word}
    (ha : s.storeAddr i = some addr) (hw : s.storeValue i = some w) (hin : s.InBounds addr) :
    exec i s = .next ((s.advance i.length).storeWord addr.toNat w) := by
  cases i with
  | nop | movRI | movFI | movRR | movLD | movFLD => cases ha
  | movST dst rs =>
    obtain ⟨rb, hb, rfl⟩ := Option.map_eq_some_iff.1 ha
    obtain ⟨q, hq, rfl⟩ := Option.map_eq_some_iff.1 hw
    rw [exec, execMovST, withRegs_some hb hq, State.store_ok hin]
    rfl
  | movFST dst rs =>
    obtain ⟨rb, hb, rfl⟩ := Option.map_eq_some_iff.1 ha
    obtain ⟨q, hq, rfl⟩ := Option.map_eq_some_iff.1 hw
    rw [exec, execMovFST, withRegs_some hb hq, State.store_ok hin]
    rfl
  | movSTI dst imm =>
    obtain ⟨rb, hb, rfl⟩ := Option.map_eq_some_iff.1 ha
    cases hw
    rw [exec, execMovSTI, withReg_some hb, State.store_ok hin]
    rfl
  | movFSTI dst fimm =>
    obtain ⟨rb, hb, rfl⟩ := Option.map_eq_some_iff.1 ha
    cases hw
    rw [exec, execMovFSTI, withReg_some hb, State.store_ok hin]
    rfl

section Next

variable {i : Instr} {s t : State} (h : exec i s = .next t)
include h

/-- A store that runs leaves its word at its address and every other byte as it was (R33). -/
theorem exec_storedWord {addr : Int} {w : Word} (ha : s.storeAddr i = some addr)
    (hw : s.storeValue i = some w) (hin : s.InBounds addr) : StoredWord s t addr w := by
  obtain rfl := Host.Outcome.next.inj ((exec_of_store ha hw hin).symm.trans h)
  exact storedWord_storeWord (s.advance_mem _) hin.1 w

/-- An instruction with nothing to store, or no address in the buffer to store it at, leaves memory (R34, R43). -/
theorem exec_mem_of_no_store
    (hn : ¬∃ addr w, s.storeAddr i = some addr ∧ s.storeValue i = some w ∧ s.InBounds addr) :
    t.mem = s.mem := by
  rcases exec_inversion i s with ⟨-, e⟩ | ⟨_, b, -, -, e⟩ | ⟨m, rb, -, -, -, e⟩ |
    ⟨k, b, p, w, -, -, -, e⟩ | ⟨m, rb, w, -, -, -, -, ha, hw, hin, -⟩
  · cases e.symm.trans h
    rfl
  · cases e.symm.trans h
    rfl
  · cases e.symm.trans h
    rfl
  · cases e.symm.trans h
    rw [State.setReg_mem, State.advance_mem]
  · exact absurd ⟨_, w, ha, hw, hin⟩ hn

end Next

/-! ### A form that stores does not read memory (R43) -/

/-- The state with another memory, every other field as it was. -/
def State.withMem (s : State) (m : Mem) : State := { s with mem := m }

/-- The end of a step from another memory differs in memory only (R76). -/
theorem State.withMem_finish_withMem (s : State) (m : Mem) (n : Nat)
    (o : Except FaultRecord Effect) :
    ((s.withMem m).finish n o).withMem (s.finish n o).mem = s.finish n o := by
  cases o with
  | error r => rfl
  | ok eff =>
    cases eff with
    | writeReg k r w => cases k <;> rfl
    | store a w => rfl

/-- A form that stores computes its fault or its effect without memory, so that its next states from two
memories differ in memory only (R43). -/
theorem exec_withMem {i : Instr} {s t : State} (hi : storesMemory i = true) (m : Mem)
    (h : exec i s = .next t) :
    ∃ t', exec i (s.withMem m) = .next t' ∧ t'.withMem t.mem = t := by
  have fin : ∀ {n : Nat} {o : Except FaultRecord Effect},
      (Host.Outcome.next (s.finish n o) : Answer) = .next t →
      ∃ t', (Host.Outcome.next ((s.withMem m).finish n o) : Answer) = .next t' ∧
        t'.withMem t.mem = t := by
    intro n o h
    obtain rfl := Host.Outcome.next.inj h
    exact ⟨_, rfl, s.withMem_finish_withMem m n o⟩
  cases i with
  | nop | movRI | movFI | movRR | movLD | movFLD => cases hi
  | movST | movSTI | movFST | movFSTI => exact fin h

end Machine

/-! ### The obligations -/

/-- Settles O13: a store's next states from two memories differ in memory only, and what each holds there is
either the stored word or, where there is no store, what it held before. -/
theorem noFormReadsAndWritesMemory : Obligations.NoFormReadsAndWritesMemory := by
  intro i s
  obtain ⟨t, ht⟩ := exists_exec_eq_next i s
  constructor
  · intro hi
    refine ⟨t, ht, exec_mem_of_no_store ht ?_⟩
    rintro ⟨addr, w, ha, -⟩
    cases (storeAddr_eq_none s hi).symm.trans ha
  · intro hi m
    obtain ⟨t', ht', hsame⟩ := exec_withMem hi m ht
    exact ⟨t, t', ht, ht', hsame,
      fun addr w ha hw hin => ⟨exec_storedWord ht ha hw hin, exec_storedWord ht' ha hw hin⟩,
      fun hn => ⟨exec_mem_of_no_store ht hn, exec_mem_of_no_store ht' hn⟩⟩

/-- Settles O17: the bounds check splits on exactly this condition, and a store whose address is refused has
none to commit. -/
theorem boundsCheckIsExact : Obligations.BoundsCheckIsExact := by
  refine ⟨fun s addr hout => ?_, fun s addr hin => ?_, fun s hsize => ?_, fun s addr hsize => ?_,
    fun i s t addr ha hout h => ?_⟩
  · exact ⟨State.memRead_error hout, State.memWrite_error hout⟩
  · have h0 : 0 ≤ addr := by omega
    have h1 : addr + 8 ≤ s.cfg.memSize := by omega
    exact ⟨⟨_, State.memRead_ok h0 h1, holdsWord_le64_readBytes s addr.toNat⟩,
      fun w => ⟨_, State.memWrite_ok h0 h1 w, storedWord_storeWord rfl h0 w⟩⟩
  · simp [State.InBounds, hsize]
  · rintro ⟨h0, h1⟩
    omega
  · apply exec_mem_of_no_store h
    rintro ⟨addr', w, ha', -, hin⟩
    cases ha.symm.trans ha'
    exact hout hin

/-- Settles O27: the two outcomes of a code read, the second with its bytes. -/
theorem codeReadAllOrNothing : Obligations.CodeReadAllOrNothing := by
  intro code off n
  rcases codeRead_cases code off n with ⟨hout, hr⟩ | ⟨h0, h1, hr⟩
  · exact ⟨fun _ => hr, fun hin => absurd hout hin⟩
  · refine ⟨fun hout => by omega, fun _ => ⟨_, hr, ?_, fun k hk => ?_⟩⟩
    · rw [List.length_take, List.length_drop]
      omega
    · rw [List.getElem?_take_of_lt hk, List.getElem?_drop]

/-- Settles O39: no step changes the code buffer, and no instruction's effect reads it. -/
theorem codeIsReadOnlyAndUnreadable : Obligations.CodeIsReadOnlyAndUnreadable := by
  refine ⟨fun s t h => (step_code_cfg h).1, fun i s c => ?_⟩
  obtain ⟨t, h⟩ := exists_exec_eq_next i s
  obtain ⟨-, -, hcfg⟩ := exec_steps_code_cfg h
  refine ⟨t, h, ?_⟩
  change exec i (s.withCodeCfg c s.cfg) = .next (t.withCodeCfg c t.cfg)
  rw [hcfg]
  exact exec_withCodeCfg c rfl h

end Sys2Proof
end

section
/-!
PROOFS. Encoding and decoding (spec/30_encoding.md): what the dispatcher gives for each first byte or two, that the
decoder and the encoder are inverse at every offset of every code buffer, and the faults of bytes that begin no
instruction.
-/

namespace Sys2Proof

open Machine

/-! ### Bytes that stand in a code buffer -/

theorem codeAt_embed (pre bs post : List Byte) : CodeAt (pre ++ bs ++ post) pre.length bs := by
  refine ⟨Int.natCast_nonneg _, post, ?_⟩
  rw [Int.toNat_natCast, List.append_assoc, List.drop_left]

/-- Two runs of bytes stand at an offset exactly when the second stands just past the first. -/
theorem codeAt_append_iff {code : List Byte} {off : Int} {bs cs : List Byte} :
    CodeAt code off (bs ++ cs) ↔ CodeAt code off bs ∧ CodeAt code (off + bs.length) cs := by
  refine ⟨fun h => ⟨codeAt_left h, codeAt_append h⟩, ?_⟩
  rintro ⟨⟨h0, t, ht⟩, -, hcs⟩
  refine ⟨h0, ?_⟩
  rw [show (off + bs.length).toNat = off.toNat + bs.length by omega, ← List.drop_drop, ← ht,
    List.drop_left] at hcs
  rw [← ht]
  exact (List.prefix_append_right_inj bs).2 hcs

/-! ### The InstructionTable and the ModeTable (R52, R53) -/

/-- The first byte of an instruction is that of NOP, that of MOV, or illegal (R52, R59). -/
theorem opcode_cases (op : Byte) : op = 0x00#8 ∨ op = 0x01#8 ∨ 2 ≤ op.toNat := by bv_omega

/-- The InstructionTable has no entry for 0x02 to 0xFF (R59). -/
theorem lookupOpcode_eq_none {op : Byte} (h : 2 ≤ op.toNat) : lookupOpcode op = none := by
  have hall : ∀ d ∈ instructionTable, d.opcode.toNat < 2 := by decide
  refine List.find?_eq_none.2 fun d hd heq => ?_
  have := hall d hd
  rw [beq_iff_eq.1 heq] at this
  omega

/-- Which opcode byte an InstructionTable entry answers to (R52). -/
theorem opcode_of_lookupOpcode {op : Byte} {d : InstructionDescriptor}
    (h : lookupOpcode op = some d) : op = if d.hasMode then 0x01#8 else 0x00#8 := by
  have hall : ∀ d ∈ instructionTable, d.opcode = if d.hasMode then 0x01#8 else 0x00#8 := by
    decide
  rw [← hall d (List.mem_of_find?_eq_some h)]
  have hop := List.find?_some (p := fun d : InstructionDescriptor => d.opcode == op) h
  exact (beq_iff_eq.1 hop).symm

/-- A mode byte selects the form whose header it ends (R53). -/
theorem lookupMode_eq_some {m : Byte} {fm : Form} :
    lookupMode m = some fm ↔ fm.header = [0x01#8, m] := by
  constructor
  · intro h
    obtain ⟨row, hrow, rfl⟩ := Option.map_eq_some_iff.1 h
    have hall : ∀ row ∈ modeTable, row.2.header = [0x01#8, row.1] := by decide
    have hm := List.find?_some (p := fun row : Byte × Form => row.1 == m) hrow
    rw [hall row (List.mem_of_find?_eq_some hrow), beq_iff_eq.1 hm]
  · intro h
    cases fm <;> cases h <;> rfl

/-- The ModeTable has no entry for 0 and for 10 to 255 (R60, D3). -/
theorem lookupMode_eq_none {m : Byte} (h : m.toNat = 0 ∨ 10 ≤ m.toNat) :
    lookupMode m = none := by
  have hall : ∀ row ∈ modeTable, 1 ≤ row.1.toNat ∧ row.1.toNat ≤ 9 := by decide
  refine Option.map_eq_none_iff.2 (List.find?_eq_none.2 fun row hrow heq => ?_)
  have := hall row hrow
  rw [beq_iff_eq.1 heq] at this
  omega

/-! ### Fetch and dispatch (R71, R73) -/

section Dispatch

variable {code bs : List Byte} {ip0 : Int}

/-- NOP is dispatched from its one byte (R56). -/
theorem dispatchForm_nop (h : CodeAt code ip0 (0x00#8 :: bs)) :
    dispatchForm code ip0 = .ok (.nop, ip0 + 1) := by
  rw [dispatchForm, readByte_of_codeAt h]
  rfl

/-- An opcode byte 0x02 to 0xFF is rejected, and no byte after it is read (R59). -/
theorem dispatchForm_unknownOpcode {op : Byte} (h : CodeAt code ip0 (op :: bs))
    (hop : 2 ≤ op.toNat) : dispatchForm code ip0 = .error (.unknownOpcode op) := by
  simp [dispatchForm, readByte_of_codeAt h, lookupOpcode_eq_none hop]

/-- The two bytes that a MOV's dispatch reads. -/
theorem readByte_mov {m : Byte} (h : CodeAt code ip0 (0x01#8 :: m :: bs)) :
    readByte code ip0 = .ok (0x01#8, ip0 + 1) ∧ readByte code (ip0 + 1) = .ok (m, ip0 + 2) := by
  have hm := readByte_of_codeAt (codeAt_append (bs := [0x01#8]) h)
  refine ⟨readByte_of_codeAt h, ?_⟩
  simpa [Int.add_assoc] using hm

@[simp] theorem lookupOpcode_mov :
    lookupOpcode 0x01#8 = some { name := .mov, opcode := 0x01#8, hasMode := true } := rfl

/-- A mode byte outside 1 to 9 is rejected, and no byte after it is read (R60). -/
theorem dispatchForm_unknownMode {m : Byte} (h : CodeAt code ip0 (0x01#8 :: m :: bs))
    (hm : lookupMode m = none) : dispatchForm code ip0 = .error (.unknownMode m) := by
  obtain ⟨h0, h1⟩ := readByte_mov h
  simp [dispatchForm, h0, h1, hm]

/-- After opcode 0x01 the mode byte selects the form (R53, R73). -/
theorem dispatchForm_mov {m : Byte} {fm : Form} (h : CodeAt code ip0 (0x01#8 :: m :: bs))
    (hm : lookupMode m = some fm) : dispatchForm code ip0 = .ok (fm, ip0 + 2) := by
  obtain ⟨h0, h1⟩ := readByte_mov h
  simp [dispatchForm, h0, h1, hm]

/-- A form is NOP, or its header is opcode 0x01 and a mode byte that selects it (R51, R53). -/
theorem Form.header_cases (fm : Form) :
    fm = .nop ∨ ∃ m, fm.header = [0x01#8, m] ∧ lookupMode m = some fm := by
  cases fm with
  | nop => exact .inl rfl
  | _ => exact .inr ⟨_, rfl, rfl⟩

/-- A form whose header stands at an offset is dispatched there (R51, R73). -/
theorem dispatchForm_of_header {fm : Form} (h : CodeAt code ip0 fm.header) :
    dispatchForm code ip0 = .ok (fm, ip0 + fm.header.length) := by
  rcases fm.header_cases with rfl | ⟨m, hfm, hm⟩
  · exact dispatchForm_nop h
  · rw [hfm] at h ⊢
    exact dispatchForm_mov h hm

/-- A dispatched form has its header at the offset (R51, R73). -/
theorem codeAt_header_of_dispatchForm {fm : Form} {cur : Int}
    (h : dispatchForm code ip0 = .ok (fm, cur)) : CodeAt code ip0 fm.header := by
  rw [dispatchForm] at h
  split at h
  · cases h
  · next op cur1 hread =>
    obtain ⟨hop, -, rfl⟩ := readByte_ok hread
    split at h
    · cases h
    · next d hlook =>
      have hd := opcode_of_lookupOpcode hlook
      split at h
      · next hmode =>
        obtain rfl := hd.trans (if_pos hmode)
        split at h
        · cases h
        · next m cur2 hread' =>
          obtain ⟨hm, -, -⟩ := readByte_ok hread'
          split at h
          · cases h
          · next fm' hfm =>
            cases h
            rw [lookupMode_eq_some.1 hfm]
            exact codeAt_append_iff (bs := [0x01#8]).2 ⟨hop, hm⟩
      · next hmode =>
        obtain rfl := hd.trans (if_neg hmode)
        cases h
        exact hop

end Dispatch

/-! ### The operand fields (R54, R74) -/

section Operands

variable {code : List Byte} {off cur : Int}

/-- A field's bytes are as many as its kind's width (R54). -/
@[simp] theorem OperandKind.encode_length (k : OperandKind) (v : k.Value) :
    (k.encode v).length = k.width := by
  cases k <;> simp [OperandKind.encode, OperandKind.width]

@[simp] theorem encodeOperands_length (ks : List OperandKind) (vs : Operands ks) :
    (encodeOperands ks vs).length = (ks.map OperandKind.width).sum := by
  induction ks with
  | nil => rfl
  | cons k ks ih =>
    obtain ⟨v, vs⟩ := vs
    rw [encodeOperands, List.length_append, OperandKind.encode_length, ih, List.map_cons,
      List.sum_cons]

theorem readInt64_bytes64 {w : Word} (h : CodeAt code off (bytes64 w)) :
    readInt64 code off = .ok (w, off + 8) :=
  readInt64_of_codeAt (bs := []) (by rwa [List.append_nil])

/-- A field whose bytes stand at the cursor is read back (R54, R66). -/
theorem OperandKind.read_of_codeAt {k : OperandKind} {v : k.Value}
    (h : CodeAt code off (k.encode v)) : k.read code off = .ok (v, off + k.width) := by
  cases k with
  | intReg | floatReg => exact readByte_of_codeAt h
  | int64Immediate | float64Immediate => exact readInt64_bytes64 h
  | memoryIndirect =>
    obtain ⟨hb, ho⟩ := codeAt_append_iff (bs := [v.base]).1 h
    have hread : readInt64 code (off + 1) = .ok (v.offset, off + 1 + 8) := readInt64_bytes64 ho
    simp [OperandKind.read, OperandKind.width, readByte_of_codeAt hb, hread,
      Int.add_assoc]
  | none => simp [OperandKind.read, OperandKind.width]

/-- The bytes of a field that is read are its encoding (R54, R66). -/
theorem OperandKind.codeAt_of_read {k : OperandKind} {v : k.Value} (h0 : 0 ≤ off)
    (h : k.read code off = .ok (v, cur)) : CodeAt code off (k.encode v) := by
  cases k with
  | intReg | floatReg => exact (readByte_ok h).1
  | int64Immediate | float64Immediate => exact (readInt64_ok h).1
  | none => exact ⟨h0, List.nil_prefix⟩
  | memoryIndirect =>
    rw [OperandKind.read] at h
    split at h
    · cases h
    · next base cur1 hread =>
      obtain ⟨hb, -, rfl⟩ := readByte_ok hread
      split at h
      · cases h
      · next o cur2 hread' =>
        obtain ⟨ho, -, -⟩ := readInt64_ok hread'
        cases h
        exact codeAt_append_iff (bs := [base]).2 ⟨hb, ho⟩

/-- Operand fields whose bytes stand at the cursor are read back (R66, R74). -/
theorem decodeOperands_of_codeAt {ks : List OperandKind} {vs : Operands ks}
    (h : CodeAt code off (encodeOperands ks vs)) :
    decodeOperands code ks off = .ok (vs, off + (ks.map OperandKind.width).sum) := by
  induction ks generalizing off with
  | nil => simp [decodeOperands]
  | cons k ks ih =>
    obtain ⟨v, vs⟩ := vs
    obtain ⟨hv, hvs⟩ := codeAt_append_iff.1 h
    rw [OperandKind.encode_length] at hvs
    simp [decodeOperands, OperandKind.read_of_codeAt hv, ih hvs, Int.add_assoc]

/-- The bytes of operand fields that are read are their encoding (R66, R74). -/
theorem codeAt_of_decodeOperands {ks : List OperandKind} {vs : Operands ks} (h0 : 0 ≤ off)
    (hoff : off ≤ code.length) (h : decodeOperands code ks off = .ok (vs, cur)) :
    CodeAt code off (encodeOperands ks vs) := by
  induction ks generalizing off with
  | nil => exact ⟨h0, List.nil_prefix⟩
  | cons k ks ih =>
    rw [decodeOperands] at h
    split at h
    · cases h
    · next v cur1 hv =>
      split at h
      · cases h
      · next vs' cur2 hvs =>
        cases h
        obtain ⟨rfl, hle⟩ := OperandKind.read_ok hoff hv
        refine codeAt_append_iff.2 ⟨OperandKind.codeAt_of_read h0 hv, ?_⟩
        rw [OperandKind.encode_length]
        exact ih (by omega) hle hvs

end Operands

/-! ### The decoder and the encoder (R66) -/

@[simp] theorem Instr.assemble_operands (i : Instr) : i.form.assemble i.operands = i := by
  cases i <;> rfl

/-- The bytes of an assembled instruction are its form's header and its operand fields (R51). -/
theorem encode_assemble (fm : Form) (vs : Operands fm.operandKinds) :
    encode (fm.assemble vs) = fm.header ++ encodeOperands fm.operandKinds vs := by
  cases fm <;> rfl

/-- An encoding is as long as its form says (R55). -/
theorem encode_length (i : Instr) : (encode i).length = i.length := by
  rw [encode, List.length_append, encodeOperands_length, ← Form.length_eq, Instr.length]

/-- An instruction whose encoding stands at an offset is decoded there, with its length (R66). -/
theorem decodeAt_of_codeAt {code : List Byte} {off : Int} {i : Instr}
    (h : CodeAt code off (encode i)) : decodeAt code off = .ok (i, off + i.length) := by
  obtain ⟨hheader, hops⟩ := codeAt_append_iff.1 h
  simp [decodeAt, dispatchForm_of_header hheader, decodeOperands_of_codeAt hops, Instr.length,
    Form.length_eq, Int.add_assoc]

/-- The bytes of a decoded instruction are its encoding (R66). -/
theorem codeAt_of_decodeAt {code : List Byte} {off cur : Int} {i : Instr}
    (h : decodeAt code off = .ok (i, cur)) : CodeAt code off (encode i) := by
  rw [decodeAt] at h
  split at h
  · cases h
  · next fm cur1 hd =>
    split at h
    · cases h
    · next vs cur2 ho =>
      cases h
      obtain ⟨h0, rfl, hle⟩ := dispatchForm_ok hd
      rw [encode_assemble]
      exact codeAt_append_iff.2
        ⟨codeAt_header_of_dispatchForm hd, codeAt_of_decodeOperands (by omega) hle ho⟩

/-- Bytes that the dispatcher rejects are no instruction (R71, R73). -/
theorem decodeAt_of_dispatchForm_error {code : List Byte} {off : Int} {e : DecodeFault}
    (h : dispatchForm code off = .error e) : decodeAt code off = .error e := by
  rw [decodeAt, h]

/-! ### The rows of the opcode table (R65) -/

/-- A row's match and mask by bytes: NOP fixes the first byte alone, a mode fixes both (R65). -/
theorem opcodeRow_cases {row : OpcodeRow} (h : row ∈ opcodeTable) :
    (row.form.header = [0x00#8] ∧ row.mask = 0x00#8 ++ BitVec.allOnes 8 ∧
        row.pattern = 0x00#8 ++ 0x00#8) ∨
      ∃ m : Byte, row.form.header = [0x01#8, m] ∧ row.mask = BitVec.allOnes 16 ∧
        row.pattern = m ++ 0x01#8 := by
  have hall : ∀ row ∈ opcodeTable,
      (row.form.header = [0x00#8] ∧ row.mask = 0x00#8 ++ BitVec.allOnes 8 ∧
          row.pattern = 0x00#8 ++ 0x00#8) ∨
        row.form.header = [0x01#8, row.pattern.extractLsb' 8 8] ∧ row.mask = BitVec.allOnes 16 ∧
          row.pattern = row.pattern.extractLsb' 8 8 ++ 0x01#8 := by decide
  exact (hall row h).imp_right fun h => ⟨_, h⟩

/-- Two bytes side by side are equal exactly when each is. -/
theorem byte_append_inj {a b c d : Byte} : a ++ b = c ++ d ↔ a = c ∧ b = d := by
  refine ⟨fun h => ⟨?_, ?_⟩, fun ⟨ha, hb⟩ => by rw [ha, hb]⟩
  · simpa only [BitVec.extractLsb'_append_eq_left] using congrArg (BitVec.extractLsb' 8 8) h
  · simpa only [BitVec.extractLsb'_append_eq_right] using congrArg (BitVec.extractLsb' 0 8) h

/-- A row is matched by exactly the bytes that its form's header begins (R53, R65). -/
theorem opcodeRow_match_iff {row : OpcodeRow} (h : row ∈ opcodeTable) (b0 b1 : Byte) :
    (b1 ++ b0) &&& row.mask = row.pattern ↔ row.form.header <+: [b0, b1] := by
  rcases opcodeRow_cases h with ⟨hh, hm, hp⟩ | ⟨m, hh, hm, hp⟩
  · rw [hh, hm, hp, BitVec.and_append, BitVec.and_allOnes, byte_append_inj]
    simp [eq_comm (a := b0)]
  · rw [hh, hm, hp, BitVec.and_allOnes, byte_append_inj]
    simp [eq_comm (a := b0), eq_comm (a := b1), and_comm]

/-- No two rows of the table match one value (R65). -/
theorem opcodeRow_unique {v : BitVec 16} {r r' : OpcodeRow} (hr : r ∈ opcodeTable)
    (hr' : r' ∈ opcodeTable) (h : v &&& r.mask = r.pattern) (h' : v &&& r'.mask = r'.pattern) :
    r = r' := by
  have hall : ∀ r ∈ opcodeTable, ∀ r' ∈ opcodeTable,
      r.pattern &&& r'.mask = r'.pattern &&& r.mask → r = r' := by decide
  apply hall r hr r' hr'
  rw [← h, ← h', BitVec.and_assoc, BitVec.and_assoc, BitVec.and_comm r.mask]

/-- The first bytes of a buffer stand at offset 0. -/
theorem codeAt_start {bs cs : List Byte} (h : bs <+: cs) : CodeAt cs 0 bs := ⟨Int.le_refl 0, h⟩

/-- A selected row is a row that the value matches (R65). -/
theorem mem_of_selectRow {v : BitVec 16} {row : OpcodeRow} (h : selectRow v = some row) :
    row ∈ opcodeTable ∧ v &&& row.mask = row.pattern :=
  ⟨List.mem_of_find?_eq_some h,
    beq_iff_eq.1 (List.find?_some (p := fun row : OpcodeRow => v &&& row.mask == row.pattern) h)⟩

/-- Bytes that match no row begin no form's header (R65). -/
theorem not_header_prefix_of_selectRow {b0 b1 : Byte} (h : selectRow (b1 ++ b0) = none)
    (fm : Form) : ¬fm.header <+: [b0, b1] := by
  have hrow : ∃ row ∈ opcodeTable, row.form = fm := by cases fm <;> decide
  obtain ⟨row, hmem, rfl⟩ := hrow
  rw [← opcodeRow_match_iff hmem, ← beq_iff_eq]
  exact List.find?_eq_none.1 h row hmem

/-- Where no row matches, the dispatcher rejects the mode byte after opcode 0x01, else the opcode
byte (R65). -/
theorem dispatchForm_of_selectRow_none {b0 b1 : Byte} (h : selectRow (b1 ++ b0) = none)
    (rest : List Byte) : dispatchForm (b0 :: b1 :: rest) 0 =
      .error (if b0 = 0x01#8 then .unknownMode b1 else .unknownOpcode b0) := by
  have hno := not_header_prefix_of_selectRow h
  have hat : CodeAt (b0 :: b1 :: rest) 0 (b0 :: b1 :: rest) := codeAt_start List.prefix_rfl
  rcases opcode_cases b0 with rfl | rfl | hop
  · exact absurd (by simp [Form.header]) (hno .nop)
  · cases hm : lookupMode b1 with
    | none => exact dispatchForm_unknownMode hat hm
    | some fm =>
      refine absurd ?_ (hno fm)
      rw [lookupMode_eq_some.1 hm]
  · rw [if_neg (by rintro rfl; simp at hop)]
    exact dispatchForm_unknownOpcode hat hop

/-- Where a row matches, the dispatcher gives its form (R65). -/
theorem dispatchForm_of_selectRow_some {b0 b1 : Byte} {row : OpcodeRow}
    (h : selectRow (b1 ++ b0) = some row) (rest : List Byte) :
    dispatchForm (b0 :: b1 :: rest) 0 = .ok (row.form, row.form.header.length) := by
  obtain ⟨hmem, hmatch⟩ := mem_of_selectRow h
  have hpre := (opcodeRow_match_iff hmem b0 b1).1 hmatch
  have hat := codeAt_start (hpre.trans (List.prefix_append [b0, b1] rest))
  rw [← Int.zero_add (row.form.header.length : Int)]
  exact dispatchForm_of_header hat

theorem opcodeRow_length {row : OpcodeRow} (h : row ∈ opcodeTable) :
    row.length = row.form.length := by
  have hall : ∀ row ∈ opcodeTable, row.length = row.form.length := by decide
  exact hall row h

/-! ### Register bytes (R58) -/

theorem validate_eq_ok {b : Byte} {r : Reg} : validate b = .ok r ↔ b.toNat = r.index := by
  rw [← Reg.ofByte_eq_some, validate]
  cases Reg.ofByte b <;> simp

theorem validate_eq_error {b : Byte} :
    validate b = .error (.registerIndexOutOfRange b) ↔ 8 ≤ b.toNat := by
  rw [← Reg.ofByte_eq_none, validate]
  cases Reg.ofByte b <;> simp

/-! ### A step whose bytes begin no instruction -/

/-- A step whose fetch the dispatcher rejects ends in the fault of the rejection and changes nothing
but the engine and the counter (R59, R60, R149). -/
theorem step_of_dispatchForm_error {s : State} {e : DecodeFault} (hr : s.Ready)
    (h : dispatchForm s.code s.x.ip.toInt = .error e) :
    ∃ t, step s = .next t ∧ t.engine = .faulted (recordOf e) ∧
      t.x = s.x ∧ t.f = s.f ∧ t.mem = s.mem ∧ t.code = s.code ∧ t.cfg = s.cfg :=
  ⟨_, step_of_decode_error hr (decodeAt_of_dispatchForm_error h), rfl, rfl, rfl, rfl, rfl, rfl⟩

/-! ### The obligations -/

/-- Settles O22: bytes that stand at an offset are read back there, and bytes that were read are the
encoding of what was read. -/
theorem decodeInvertsEncode : Obligations.DecodeInvertsEncode := by
  refine ⟨fun ks vs pre post => ?_, fun i pre post => ?_, fun code ip0 cur i h => ?_⟩
  · rw [encodeOperands_length]
    exact decodeOperands_of_codeAt (codeAt_embed pre _ post)
  · exact decodeAt_of_codeAt (codeAt_embed pre _ post)
  · obtain ⟨-, hcur, -⟩ := decodeAt_bounds h
    exact ⟨codeAt_of_decodeAt h, by rw [hcur, encode_length]⟩

/-- Settles O24: the bytes of a decoded instruction begin with its form's header, and the cursor
stands its form's length further on. -/
theorem firstBytesFixTheLength : Obligations.FirstBytesFixTheLength := by
  intro code ip0 cur i h
  have hheader : CodeAt code ip0 i.form.header := codeAt_left (codeAt_of_decodeAt h)
  obtain ⟨-, hcur, -⟩ := decodeAt_bounds h
  cases i with
  | nop => exact .inl ⟨rfl, hheader, hcur⟩
  | _ => exact .inr ⟨_, hheader, by simpa [Instr.length, Instr.form, Form.length] using hcur⟩

/-- Settles O25: a row is matched by exactly the bytes its form's header begins, so the row that is
selected and the dispatcher agree. -/
theorem opcodeTableSelectsTheForm : Obligations.OpcodeTableSelectsTheForm := by
  refine ⟨fun v r r' hr hr' h h' => opcodeRow_unique hr hr' h h', fun b0 b1 rest => ?_, rfl⟩
  cases h : selectRow (b1 ++ b0) with
  | some row =>
    exact ⟨opcodeRow_length (mem_of_selectRow h).1, dispatchForm_of_selectRow_some h rest⟩
  | none => exact dispatchForm_of_selectRow_none h rest

/-- Settles O28: the dispatcher rejects the opcode byte. -/
theorem unknownOpcodeFaults : Obligations.UnknownOpcodeFaults :=
  fun _ _ hr hat hop => step_of_dispatchForm_error hr (dispatchForm_unknownOpcode hat hop)

/-- Settles O29: the dispatcher rejects the mode byte. -/
theorem unknownModeFaults : Obligations.UnknownModeFaults :=
  fun _ _ hr hat hm =>
    step_of_dispatchForm_error hr (dispatchForm_unknownMode hat (lookupMode_eq_none hm))

/-- Settles O21: a register byte names a register or faults, and the base value is a register's. -/
theorem registerFieldComparedWhole : Obligations.RegisterFieldComparedWhole := by
  refine fun b => ⟨fun r => validate_eq_ok, validate_eq_error, ?_, fun s r off _ => rfl⟩
  rcases Nat.lt_or_ge b.toNat 8 with hb | hb
  · obtain ⟨r, hr⟩ := Reg.ofByte_of_le (Nat.le_of_lt_succ hb)
    exact .inl ⟨r, validate_some hr⟩
  · exact .inr (validate_eq_error.2 hb)

/-- Settles O23: the length by the form's, the layouts by evaluation of `encode` on each form. -/
theorem formatsByteByByte : Obligations.FormatsByteByByte :=
  ⟨encode_length, rfl, rfl, fun _ _ => ⟨rfl, rfl⟩, fun _ _ => rfl, fun _ _ _ => ⟨rfl, rfl⟩,
    fun _ _ _ => ⟨rfl, rfl⟩, fun _ _ _ => ⟨rfl, rfl⟩⟩

/-- Settles O26: each word is the encoding of its instruction. -/
theorem sampleWordsDecode : Obligations.SampleWordsDecode :=
  ⟨decodeAt_of_codeAt (codeAt_start (List.prefix_rfl (l := encode .nop))),
    decodeAt_of_codeAt (codeAt_start (List.prefix_rfl (l := encode (.movRI 3#8 42#64)))),
    decodeAt_of_codeAt (codeAt_start (List.prefix_rfl (l := encode (.movRR 4#8 3#8)))),
    decodeAt_of_codeAt (codeAt_start (List.prefix_rfl (l := encode (.movST ⟨3#8, 16#64⟩ 4#8)))),
    decodeAt_of_codeAt (codeAt_start
      (List.prefix_rfl (l := encode (.movFSTI ⟨6#8, 0#64⟩ 0x8000000000000000#64))))⟩

end Sys2Proof
end

section
/-!
PROOFS. The execution cycle (spec/40_execution_cycle.md): a step runs the instruction at `IP`, a terminal state stays,
a budget ends every execution, and placed bytes run next.
-/

namespace Sys2Proof

open Machine

namespace Machine

/-! ### Steps and runs -/

/-- Every state has a next state (R70). -/
theorem exists_step_eq_next (s : State) : ∃ t, step s = .next t := by
  rcases step_cases s with ⟨-, hs⟩ | ⟨-, r, -, hs⟩ | ⟨-, e, -, hs⟩ | ⟨-, i, cur, -, hs⟩
  · exact ⟨_, hs⟩
  · exact ⟨_, hs⟩
  · exact ⟨_, hs⟩
  · rw [hs]
    exact exists_exec_eq_next i s.countStep

/-- A step that executes nothing ends in a terminal state (R72, R79). -/
theorem exists_step_terminal_of_not_ready {s : State} (h : ¬s.Ready) :
    ∃ t, step s = .next t ∧ t.engine ≠ .running := by
  rcases step_cases s with ⟨he, hs⟩ | ⟨-, r, -, hs⟩ | ⟨hr, -⟩ | ⟨hr, -⟩
  · exact ⟨s, hs, he⟩
  · exact ⟨s.raise r, hs, by simp⟩
  · exact absurd hr h
  · exact absurd hr h

/-- A terminal state is left as it is by any number of steps (R79, D27). -/
theorem runSteps_of_not_running {s : State} (h : s.engine ≠ .running) (n : Nat) :
    runSteps n s = .next s := by
  induction n with
  | zero => rfl
  | succ n ih => rw [runSteps_succ (step_of_not_running h), ih]

/-- With a budget, each step that executes uses up one of the steps the budget leaves, and the next
step that does not execute ends the run (R72, D15). -/
theorem exists_runSteps_terminal_of_budget {s : State} {n : BitVec 64}
    (hn : s.cfg.maxSteps = some n) :
    ∃ k t, k ≤ n.toNat - s.steps.toNat + 1 ∧ runSteps k s = .next t ∧ t.engine ≠ .running := by
  by_cases hr : s.Ready
  · obtain ⟨u, hu⟩ := exists_step_eq_next s
    have hcount : u.steps.toNat = s.steps.toNat + 1 ∧ u.steps.toNat ≤ n.toNat := by
      rw [step_steps_of_ready hu hr]
      exact hr.countStep_steps_le hn
    have hun : u.cfg.maxSteps = some n := by rw [(step_code_cfg hu).2, hn]
    obtain ⟨k, t, hk, ht, he⟩ := exists_runSteps_terminal_of_budget hun
    exact ⟨k + 1, t, by omega, (runSteps_succ hu k).trans ht, he⟩
  · obtain ⟨t, ht, he⟩ := exists_step_terminal_of_not_ready hr
    exact ⟨1, t, by omega, runSteps_succ ht 0, he⟩
termination_by n.toNat - s.steps.toNat

/-- An instruction whose encoding stands at `IP` runs (R66, R70). -/
theorem step_of_codeAtIp_encode {s : State} {i : Instr} (hr : s.Ready)
    (h : s.CodeAtIp (encode i)) : step s = exec i s.countStep :=
  step_of_decode_ok hr (decodeAt_of_codeAt h)

/-! ### Placing bytes where the next step fetches -/

/-- The place is an offset in or just past the code buffer, and an `i64`. -/
theorem State.fetchPlace_le (s : State) :
    s.fetchPlace ≤ s.code.length ∧ s.fetchPlace ≤ Config.maxSize := by
  unfold State.fetchPlace
  split
  · omega
  · exact ⟨Nat.zero_le _, Nat.zero_le _⟩

/-- A state with placed bytes steps: its engine is `Running`, and a spent budget has been lifted. -/
theorem State.placeBytes_ready (s : State) (bs : List Byte) : (s.placeBytes bs).Ready := by
  refine ⟨rfl, State.budgetFault_eq_none.2 fun n hn => ?_⟩
  obtain ⟨hb, hn⟩ : s.budgetFault = none ∧ s.cfg.maxSteps = some n := by
    simpa [State.placeBytes] using hn
  exact State.budgetFault_eq_none.1 hb n hn

theorem State.placeBytes_ip_toInt (s : State) (bs : List Byte) :
    (s.placeBytes bs).x.ip.toInt = s.fetchPlace := by
  obtain ⟨-, hmax⟩ := s.fetchPlace_le
  have hmax' : Config.maxSize = 2 ^ 63 - 1 := rfl
  change (BitVec.ofNat 64 s.fetchPlace).toInt = s.fetchPlace
  rw [BitVec.toInt_ofNat']
  exact Int.bmod_eq_of_le (by omega) (by omega)

theorem State.placeBytes_codeAtIp (s : State) (bs : List Byte) :
    (s.placeBytes bs).CodeAtIp bs := by
  obtain ⟨hlen, -⟩ := s.fetchPlace_le
  have hat := codeAt_embed (s.code.take s.fetchPlace) bs (s.code.drop (s.fetchPlace + bs.length))
  rw [List.length_take_of_le hlen] at hat
  rw [State.CodeAtIp, State.placeBytes_ip_toInt]
  exact hat

end Machine

/-- The bytes of a word that the decoder reads begin with the encoding of what it reads (R66). -/
theorem encode_prefix_of_decodeTableWord {nbits w : Nat} {i : Instr}
    (h : decodeTableWord nbits w = some i) : encode i <+: fetchWordBytes nbits w := by
  rw [decodeTableWord] at h
  split at h
  · next j cur hd =>
    cases h
    exact (codeAt_of_decodeAt hd).2
  · cases h

/-! ### The obligations -/

/-- Settles O43: the reset sets the counter to 0, so the budget leaves `n` steps that execute. -/
theorem budgetEndsEveryExecution : Obligations.BudgetEndsEveryExecution :=
  fun s _ hn => exists_runSteps_terminal_of_budget (s := s.requestReset) hn

/-- Settles O50: the placed bytes stand at `IP`, and they begin with the encoding of the instruction that
the decoder reads from them. -/
theorem placedInstructionRunsNext : Obligations.PlacedInstructionRunsNext := by
  intro s nbits w i h
  obtain ⟨h0, hbytes⟩ := s.placeBytes_codeAtIp (fetchWordBytes nbits w)
  exact step_of_codeAtIp_encode (s.placeBytes_ready _)
    ⟨h0, (encode_prefix_of_decodeTableWord h).trans hbytes⟩

/-- Settles O30: the decoded instruction runs on the state with the counter advanced. -/
theorem stepRunsDecodedInstruction : Obligations.StepRunsDecodedInstruction :=
  fun _ _ _ hr hd => step_of_decode_ok hr hd

/-- Settles O32, by induction on the number of steps. -/
theorem terminalStatesAbsorb : Obligations.TerminalStatesAbsorb :=
  fun _ n h => runSteps_of_not_running h n

end Sys2Proof
end

section
/-!
PROOFS. NOP (spec/41_nop.md). What `RunsAs` asks of an encoding holds of every instruction's: in a code buffer that
ends inside an instruction, the decoder's only fault is an overrun at a cursor inside the instruction.
-/

namespace Sys2Proof

open Machine

/-! ### A code buffer that ends inside an instruction (R38, R145) -/

/-- The fault is an overrun at a cursor that is not before `off` and not past the end of the code buffer (R145). -/
def OverrunsFrom (code : List Byte) (off : Int) (e : DecodeFault) : Prop :=
  ∃ cur, off ≤ cur ∧ cur ≤ code.length ∧ e = .codeBufferOverrun cur

/-- An overrun from a later offset is one from an earlier offset. -/
theorem OverrunsFrom.of_le {code : List Byte} {off off' : Int} {e : DecodeFault}
    (h : OverrunsFrom code off' e) (hle : off ≤ off') : OverrunsFrom code off e := by
  obtain ⟨cur, hcur, hend, rfl⟩ := h
  exact ⟨cur, hle.trans hcur, hend, rfl⟩

section Errors

variable {code : List Byte} {off : Int} {e : DecodeFault}

theorem overrunsFrom_of_readByte_error (hoff : off ≤ code.length)
    (h : readByte code off = .error e) : OverrunsFrom code off e :=
  ⟨off, Int.le_refl off, hoff, (readByte_error h).1⟩

theorem overrunsFrom_of_readInt64_error (hoff : off ≤ code.length)
    (h : readInt64 code off = .error e) : OverrunsFrom code off e :=
  ⟨off, Int.le_refl off, hoff, (readInt64_error h).1⟩

/-- A field that is not read overruns, at its start or at the offset of a memory-indirect operand (R74). -/
theorem OperandKind.overrunsFrom_of_read_error {k : OperandKind} (hoff : off ≤ code.length)
    (h : k.read code off = .error e) : OverrunsFrom code off e := by
  cases k with
  | intReg | floatReg => exact overrunsFrom_of_readByte_error hoff h
  | int64Immediate | float64Immediate => exact overrunsFrom_of_readInt64_error hoff h
  | none => cases h
  | memoryIndirect =>
    rw [OperandKind.read] at h
    split at h
    · next hbase =>
      cases h
      exact overrunsFrom_of_readByte_error hoff hbase
    · next base cur hbase =>
      obtain ⟨-, hle, rfl⟩ := readByte_ok hbase
      split at h
      · next hoffset =>
        cases h
        exact (overrunsFrom_of_readInt64_error hle hoffset).of_le (by omega)
      · cases h

/-- Operand fields that are not all read overrun (R74). -/
theorem overrunsFrom_of_decodeOperands_error {ks : List OperandKind} (hoff : off ≤ code.length)
    (h : decodeOperands code ks off = .error e) : OverrunsFrom code off e := by
  induction ks generalizing off with
  | nil => cases h
  | cons k ks ih =>
    rw [decodeOperands] at h
    split at h
    · next hk =>
      cases h
      exact OperandKind.overrunsFrom_of_read_error hoff hk
    · next v cur hk =>
      obtain ⟨rfl, hle⟩ := OperandKind.read_ok hoff hk
      split at h
      · next hks =>
        cases h
        exact (ih hle hks).of_le (by omega)
      · cases h

/-- Bytes of a code buffer stand in every longer one. -/
theorem codeAt_of_prefix {code' bs : List Byte} (hpre : code <+: code') (h : CodeAt code off bs) :
    CodeAt code' off bs :=
  ⟨h.1, h.2.trans (hpre.drop off.toNat)⟩

/-- Fetch and dispatch fault for want of a byte, or for a byte that a longer code buffer has too (R71, R73). -/
theorem dispatchForm_error_cases {code' : List Byte} (hpre : code <+: code')
    (hoff : off ≤ code.length) (h : dispatchForm code off = .error e) :
    OverrunsFrom code off e ∨ dispatchForm code' off = .error e := by
  rw [dispatchForm] at h
  split at h
  · next hop =>
    cases h
    exact .inl (overrunsFrom_of_readByte_error hoff hop)
  · next op cur hop =>
    obtain ⟨hat, hle, rfl⟩ := readByte_ok hop
    have hop' := readByte_of_codeAt (codeAt_of_prefix hpre hat)
    split at h
    · next hlook =>
      exact .inr (by simpa [dispatchForm, hop', hlook] using h)
    · next desc hlook =>
      split at h
      · next hmode =>
        split at h
        · next hm =>
          cases h
          exact .inl ((overrunsFrom_of_readByte_error hle hm).of_le (by omega))
        · next m cur hm =>
          obtain ⟨hat, -, rfl⟩ := readByte_ok hm
          have hm' := readByte_of_codeAt (codeAt_of_prefix hpre hat)
          split at h
          · next hform =>
            exact .inr (by simpa [dispatchForm, hop', hlook, hmode, hm', hform] using h)
          · cases h
      · cases h

/-- A decode fails for want of a byte, or on a byte that a longer code buffer has too (R71, R73, R74). -/
theorem decodeAt_error_cases {code' : List Byte} (hpre : code <+: code')
    (hoff : off ≤ code.length) (h : decodeAt code off = .error e) :
    OverrunsFrom code off e ∨ decodeAt code' off = .error e := by
  rw [decodeAt] at h
  split at h
  · next hd =>
    cases h
    exact (dispatchForm_error_cases hpre hoff hd).imp_right decodeAt_of_dispatchForm_error
  · next fm cur hd =>
    obtain ⟨-, rfl, hle⟩ := dispatchForm_ok hd
    split at h
    · next ho =>
      cases h
      exact .inl ((overrunsFrom_of_decodeOperands_error hle ho).of_le (by omega))
    · cases h

end Errors

/-- A code buffer that ends inside an instruction overruns there: with the missing bytes put back the decoder gives
the instruction, which a decode within the shorter buffer would contradict by its length (R38, R145). -/
theorem decodeAt_of_truncated {code : List Byte} {off : Int} {i : Instr} {k : Nat} (h0 : 0 ≤ off)
    (hoff : off ≤ code.length) (hk : k < (encode i).length)
    (hcode : code.drop off.toNat = (encode i).take k) :
    ∃ j, j ≤ k ∧ decodeAt code off = .error (.codeBufferOverrun (off + j)) := by
  have hlen : code.length - off.toNat = k := by
    rw [← List.length_drop, hcode, List.length_take_of_le hk.le]
  have hpre : code <+: code ++ (encode i).drop k := List.prefix_append _ _
  have hfull : decodeAt (code ++ (encode i).drop k) off = .ok (i, off + i.length) := by
    refine decodeAt_of_codeAt ⟨h0, ?_⟩
    rw [List.drop_append_of_le_length (by omega), hcode, List.take_append_drop]
  cases hd : decodeAt code off with
  | error e =>
    rcases decodeAt_error_cases hpre hoff hd with ⟨cur, hcur, hend, rfl⟩ | he
    · obtain ⟨j, rfl⟩ := Int.le.dest hcur
      exact ⟨j, by omega, rfl⟩
    · cases he.symm.trans hfull
  | ok p =>
    obtain ⟨-, hcur, hle⟩ := decodeAt_bounds hd
    cases (decodeAt_of_codeAt (codeAt_of_prefix hpre (codeAt_of_decodeAt hd))).symm.trans hfull
    rw [encode_length] at hk
    omega

namespace Machine

/-! ### What `RunsAs` asks of an encoding -/

/-- A code buffer that ends inside the instruction at `IP` gives `CodeBufferOverrun` (R145). -/
theorem step_of_codeEndsAfter {s : State} {i : Instr} {k : Nat} (hr : s.Ready)
    (hk : k < (encode i).length) (h : s.CodeEndsAfter ((encode i).take k)) :
    ∃ j, j ≤ k ∧ step s = .next (s.countStep.raise (.codeBufferOverrun (s.x.ip.toInt + j))) := by
  obtain ⟨h0, hle, hcode⟩ := h
  obtain ⟨j, hj, hd⟩ := decodeAt_of_truncated h0 (by omega) hk hcode
  exact ⟨j, hj, step_of_decode_error hr hd⟩

/-- Every instruction's encoding runs it (R70, R72, R145). -/
theorem runsAs_encode (i : Instr) : RunsAs i (encode i) := by
  refine ⟨rfl, fun s hr hat => step_of_codeAtIp_encode hr hat, fun s n he hn hle => ?_,
    fun s k hr hk h => step_of_codeEndsAfter hr hk h⟩
  exact step_of_budgetFault he (by simp [State.budgetFault, hn, hle])

end Machine

/-! ### The obligations -/

/-- Settles O1: `[0x00]` is NOP's encoding, and its meaning is to halt. -/
theorem nopHaltsInPlace : Obligations.NopHaltsInPlace :=
  ⟨runsAs_encode .nop, fun _ => rfl⟩

end Sys2Proof
end

section
/-!
PROOFS. MOV, register and immediate forms (spec/42_mov_register.md): what each form of modes 1 to 3 does on register
bytes in and out of range, what it reads, and `IP` as a destination and as a source.
-/

namespace Sys2Proof

open Machine

/-! ### Encodings and fetches -/

/-- The encoding of MOV.RI, its immediate byte by byte (R55, R92). -/
theorem encode_movRI (rd : Byte) (imm : Word) :
    encode (.movRI rd imm) =
      [0x01#8, 0x01#8, rd, imm.extractLsb' 0 8, imm.extractLsb' 8 8, imm.extractLsb' 16 8,
       imm.extractLsb' 24 8, imm.extractLsb' 32 8, imm.extractLsb' 40 8, imm.extractLsb' 48 8,
       imm.extractLsb' 56 8] :=
  congrArg ([0x01#8, 0x01#8, rd] ++ ·) (bytes64_eq imm)

/-- The encoding of MOV.FI, its pattern byte by byte (R55, R93). -/
theorem encode_movFI (rd : Byte) (fimm : Word) :
    encode (.movFI rd fimm) =
      [0x01#8, 0x02#8, rd, fimm.extractLsb' 0 8, fimm.extractLsb' 8 8, fimm.extractLsb' 16 8,
       fimm.extractLsb' 24 8, fimm.extractLsb' 32 8, fimm.extractLsb' 40 8,
       fimm.extractLsb' 48 8, fimm.extractLsb' 56 8] :=
  congrArg ([0x01#8, 0x02#8, rd] ++ ·) (bytes64_eq fimm)

/-- A fetch at an offset that is no byte of the code buffer overruns there (R38, R145). -/
theorem dispatchForm_overrun {code : List Byte} {off : Int}
    (h : off < 0 ∨ (code.length : Int) ≤ off) :
    dispatchForm code off = .error (.codeBufferOverrun off) := by
  rw [dispatchForm, readByte, codeRead, if_pos (by omega)]

namespace Machine

/-- Bytes that are an instruction's encoding run it. -/
theorem runsAs_of_encode_eq {i : Instr} {bs : List Byte} (h : encode i = bs) : RunsAs i bs :=
  h ▸ runsAs_encode i

/-! ### The state after a register write -/

/-- The integer registers after `IP` is advanced and one of them written: a write to `IP` replaces the
sequential update (R76, R95). -/
theorem State.get_x_setReg_advance (s : State) (n : Nat) (p r : Reg) (w : Word) :
    ((s.advance n).setReg .int p w).x.get r =
      if r = p then w else if r = .ip then s.x.ip + BitVec.ofNat 64 n else s.x.get r := by
  simp only [State.setReg_int_x, State.advance_x, RegFile.get_set]

theorem sameRest_setReg_advance (s : State) (n : Nat) (k : RegKind) (p : Reg) (w : Word) :
    SameRest s ((s.advance n).setReg k p w) := by
  simp [SameRest]

/-! ### What each form does, an equation per case of its register bytes (R75, R92 to R94, R101) -/

section Forms

variable {s : State} {rd rs : Byte} {p q : Reg} {imm fimm : Word}

theorem exec_movRI_of_some (hp : Reg.ofByte rd = some p) :
    exec (.movRI rd imm) s = .next ((s.advance 11).setReg .int p imm) := by
  rw [exec, execMovRI, withReg_some hp]
  rfl

theorem exec_movRI_of_none (h : Reg.ofByte rd = none) :
    exec (.movRI rd imm) s = .next (s.raise (.registerIndexOutOfRange rd)) := by
  rw [exec, execMovRI, withReg_none h]
  rfl

theorem exec_movFI_of_some (hp : Reg.ofByte rd = some p) :
    exec (.movFI rd fimm) s = .next ((s.advance 11).setReg .float p fimm) := by
  rw [exec, execMovFI, withReg_some hp]
  rfl

theorem exec_movFI_of_none (h : Reg.ofByte rd = none) :
    exec (.movFI rd fimm) s = .next (s.raise (.registerIndexOutOfRange rd)) := by
  rw [exec, execMovFI, withReg_none h]
  rfl

theorem exec_movRR_of_some (hp : Reg.ofByte rd = some p) (hq : Reg.ofByte rs = some q) :
    exec (.movRR rd rs) s = .next ((s.advance 4).setReg .int p (s.x.get q)) := by
  rw [exec, execMovRR, withRegs_some hp hq]
  rfl

theorem exec_movRR_of_none (h : Reg.ofByte rd = none) :
    exec (.movRR rd rs) s = .next (s.raise (.registerIndexOutOfRange rd)) := by
  rw [exec, execMovRR, withRegs_none h]
  rfl

theorem exec_movRR_of_some_none (hp : Reg.ofByte rd = some p) (h : Reg.ofByte rs = none) :
    exec (.movRR rd rs) s = .next (s.raise (.registerIndexOutOfRange rs)) := by
  rw [exec, execMovRR, withRegs_some_none hp h]
  rfl

theorem State.load_ok {k : RegKind} {off : Word} (h : s.InBounds (s.ea q off)) :
    s.load k p q off =
      .ok (.writeReg k p (le64 (Mem.readBytes s.mem (s.ea q off).toNat 8))) := by
  obtain ⟨h0, h1⟩ := h
  rw [State.load, State.memRead_ok h0 h1]

theorem exec_movLD_of_inBounds {src : MemIndirect} (hp : Reg.ofByte rd = some p)
    (hq : Reg.ofByte src.base = some q) (h : s.InBounds (s.ea q src.offset)) :
    exec (.movLD rd src) s = .next ((s.advance 12).setReg .int p
      (le64 (Mem.readBytes s.mem (s.ea q src.offset).toNat 8))) := by
  rw [exec, execMovLD, withRegs_some hp hq, State.load_ok h]
  rfl

end Forms

/-- Everything a form of modes 1 to 3 can do, whatever the state: name a register byte that is out of range, or
write its destination with a word that it takes from the integer registers or the instruction alone (R97). -/
theorem exec_registerForm_cases {i : Instr} {k : RegKind} {rd : Byte} (hm : memOperand i = none)
    (hd : destReg i = some (k, rd)) :
    (∃ b, ∀ s, exec i s = .next (s.raise (.registerIndexOutOfRange b))) ∨
      ∃ (p : Reg) (value : RegFile → Word), Reg.ofByte rd = some p ∧
        ∀ s, exec i s = .next ((s.advance i.length).setReg k p (value s.x)) := by
  cases i with
  | nop | movST | movSTI | movFST | movFSTI => cases hd
  | movLD | movFLD => cases hm
  | movRI rd imm =>
    cases hd
    cases hp : Reg.ofByte rd with
    | none => exact .inl ⟨rd, fun _ => exec_movRI_of_none hp⟩
    | some p => exact .inr ⟨p, fun _ => imm, rfl, fun _ => exec_movRI_of_some hp⟩
  | movFI rd fimm =>
    cases hd
    cases hp : Reg.ofByte rd with
    | none => exact .inl ⟨rd, fun _ => exec_movFI_of_none hp⟩
    | some p => exact .inr ⟨p, fun _ => fimm, rfl, fun _ => exec_movFI_of_some hp⟩
  | movRR rd rs =>
    cases hd
    cases hp : Reg.ofByte rd with
    | none => exact .inl ⟨rd, fun _ => exec_movRR_of_none hp⟩
    | some p =>
      cases hq : Reg.ofByte rs with
      | none => exact .inl ⟨rs, fun _ => exec_movRR_of_some_none hp hq⟩
      | some q => exact .inr ⟨p, fun x => x.get q, rfl, fun _ => exec_movRR_of_some hp hq⟩

end Machine

/-! ### The obligations -/

/-- Settles O2, by the two outcomes of the byte `rd`. -/
theorem movRiLoadsImmediate : Obligations.MovRiLoadsImmediate := by
  refine fun rd imm => ⟨runsAs_of_encode_eq (encode_movRI rd imm), fun s p hp => ?_,
    fun s hrd => exec_movRI_of_none ((Reg.ofByte_eq_none rd).2 hrd)⟩
  exact ⟨_, exec_movRI_of_some ((Reg.ofByte_eq_some rd p).2 hp),
    fun r => s.get_x_setReg_advance 11 p r imm, rfl, rfl, sameRest_setReg_advance s ..⟩

/-- Settles O3, by the two outcomes of the byte `rd`; the two register files are apart, so no `rd` is a jump. -/
theorem movFiLoadsPattern : Obligations.MovFiLoadsPattern := by
  refine fun rd fimm => ⟨runsAs_of_encode_eq (encode_movFI rd fimm), fun s p hp => ?_,
    fun s hrd => exec_movFI_of_none ((Reg.ofByte_eq_none rd).2 hrd)⟩
  exact ⟨_, exec_movFI_of_some ((Reg.ofByte_eq_some rd p).2 hp), fun r => s.f.get_set p r fimm,
    fun r => s.x.get_set .ip r _, rfl, sameRest_setReg_advance s ..⟩

/-- Settles O4, by the three outcomes of the bytes `rd` and `rs`. -/
theorem movRrCopiesRegister : Obligations.MovRrCopiesRegister := by
  refine fun rd rs => ⟨runsAs_of_encode_eq rfl, fun s p q hp hq => ?_,
    fun s hrd => exec_movRR_of_none ((Reg.ofByte_eq_none rd).2 hrd), fun s hrd hrs => ?_⟩
  · exact ⟨_, exec_movRR_of_some ((Reg.ofByte_eq_some rd p).2 hp) ((Reg.ofByte_eq_some rs q).2 hq),
      fun r => s.get_x_setReg_advance 4 p r _, rfl, rfl, sameRest_setReg_advance s ..⟩
  · obtain ⟨p, hp⟩ := Reg.ofByte_of_le hrd
    exact exec_movRR_of_some_none hp ((Reg.ofByte_eq_none rs).2 hrs)

/-- Settles O11: a register form does the same in every state up to the integer registers it reads, so another
memory and configuration pass through it. -/
theorem registerFormsTouchOneRegister : Obligations.RegisterFormsTouchOneRegister := by
  intro i s k rd hrun hm hd
  rcases exec_registerForm_cases hm hd with ⟨b, he⟩ | ⟨p, value, hp, he⟩
  · exact ⟨_, he s, .inr ⟨⟨b, rfl⟩, rfl, rfl⟩, rfl, fun m c => he _⟩
  · refine ⟨_, he s, .inl ⟨?_, p, (Reg.ofByte_eq_some rd p).1 hp, fun k' r hne hip => ?_⟩, ?_,
      fun m c => ?_⟩
    · rw [State.setReg_engine, State.advance_engine, hrun]
    · rw [State.getReg_setReg, if_neg (by simpa using hne), State.getReg_advance_of_ne s _ hip]
    · rw [State.setReg_mem, State.advance_mem]
    · rw [he]
      cases k <;> rfl

/-- Settles O18: the write to register 0 replaces the sequential update, and the next fetch reads no byte at an
offset outside the code buffer. -/
theorem writeToIpIsAJump : Obligations.WriteToIpIsAJump := by
  refine ⟨fun s imm => ⟨_, exec_movRI_of_some rfl, rfl⟩, fun s rs q hq => ?_,
    fun s rb off g hg hin => ?_, fun s hr hout => ?_⟩
  · exact ⟨_, exec_movRR_of_some rfl ((Reg.ofByte_eq_some rs q).2 hq), rfl⟩
  · exact ⟨_, exec_movLD_of_inBounds rfl ((Reg.ofByte_eq_some rb g).2 hg) hin,
      holdsWord_le64_readBytes s _⟩
  · obtain ⟨t, ht, he, hx, -⟩ := step_of_dispatchForm_error hr (dispatchForm_overrun hout)
    exact ⟨t, ht, he, hx⟩

/-- Settles O19: the source is read from the state before the sequential update of `IP`. -/
theorem readOfIpGivesOwnOffset : Obligations.ReadOfIpGivesOwnOffset := by
  refine ⟨fun s rd p hp => ?_, fun s rb off g hwf hg hin => ?_, fun s off => rfl⟩
  · exact ⟨_, exec_movRR_of_some ((Reg.ofByte_eq_some rd p).2 hp) rfl,
      RegFile.get_set_same _ p s.x.ip⟩
  · have ha : s.storeAddr (.movST { base := rb, offset := off } 0#8) = some (s.ea g off) := by
      rw [State.storeAddr, (Reg.ofByte_eq_some rb g).2 hg, Option.map_some]
    obtain ⟨t, ht⟩ := exists_exec_eq_next (.movST { base := rb, offset := off } 0#8) s
    exact ⟨t, ht, (exec_storedWord ht ha rfl hin).1 hwf⟩

end Sys2Proof
end

section
/-!
PROOFS. MOV, memory forms (spec/43_mov_memory.md): what each form of modes 4 to 9 does on register bytes and
addresses in and out of range, that a load gives back what any store left, and the range of the effective address.
-/

namespace Sys2Proof

open Machine

theorem Instr.wf_iff (i : Instr) : i.wf = true ↔ ∀ kb ∈ i.regBytes, kb.2.toNat ≤ 7 := by
  simp [Instr.wf, regByteOk]

/-- A register byte of a well-formed instruction names a register (R58). -/
theorem Instr.ofByte_of_wf {i : Instr} {k : RegKind} {b : Byte} (hwf : i.wf = true)
    (h : (k, b) ∈ i.regBytes) : ∃ r, Reg.ofByte b = some r :=
  Reg.ofByte_of_le ((Instr.wf_iff i).1 hwf (k, b) h)

namespace Machine

/-! ### The faults of an instruction, in their order (R75, R100) -/

theorem State.load_error {s : State} {g : Reg} {off : Word} (k : RegKind) (p : Reg)
    (h : ¬s.InBounds (s.ea g off)) :
    s.load k p g off = .error (.memoryOutOfBounds (s.ea g off)) := by
  rcases s.load_cases k p g off with ⟨-, e⟩ | ⟨hin, -⟩
  · exact e
  · exact absurd hin h

theorem State.store_error {s : State} {g : Reg} {off : Word} (w : Word)
    (h : ¬s.InBounds (s.ea g off)) :
    s.store g off w = .error (.memoryOutOfBounds (s.ea g off)) := by
  rcases s.store_cases g off w with ⟨-, e⟩ | ⟨hin, -⟩
  · exact e
  · exact absurd hin h

/-- A meaning whose stages 5 and 6 give a fault raises it (R70). -/
theorem next_finish_of_error {s : State} {n : Nat} {o : Except FaultRecord Effect}
    {r : FaultRecord} (h : o = .error r) :
    (Host.Outcome.next (s.finish n o) : Answer) = .next (s.raise r) := by
  rw [h, State.finish_error]

section Faults

variable {i : Instr} {s : State}

/-- The first register byte is checked before anything else (R75). -/
theorem exec_of_first_regByte_bad {k : RegKind} {b : Byte} {rest : List (RegKind × Byte)}
    (hi : i.regBytes = (k, b) :: rest) (hb : 7 < b.toNat) :
    exec i s = .next (s.raise (.registerIndexOutOfRange b)) := by
  have hnone : Reg.ofByte b = none := (Reg.ofByte_eq_none b).2 hb
  cases i with
  | nop => cases hi
  | movRI | movFI | movSTI | movFSTI =>
    cases hi
    exact next_finish_of_error (withReg_none hnone _)
  | movRR | movLD | movST | movFLD | movFST =>
    cases hi
    exact next_finish_of_error (withRegs_none hnone _)

/-- The second register byte is checked next, whatever the address (R75, D16). -/
theorem exec_of_second_regByte_bad {k k' : RegKind} {b b' : Byte}
    (hi : i.regBytes = [(k, b), (k', b')]) (hb : b.toNat ≤ 7) (hb' : 7 < b'.toNat) :
    exec i s = .next (s.raise (.registerIndexOutOfRange b')) := by
  obtain ⟨r, hr⟩ := Reg.ofByte_of_le hb
  have hnone : Reg.ofByte b' = none := (Reg.ofByte_eq_none b').2 hb'
  cases i with
  | nop | movRI | movFI | movSTI | movFSTI => cases hi
  | movRR | movLD | movST | movFLD | movFST =>
    cases hi
    exact next_finish_of_error (withRegs_some_none hr hnone _)

/-- With every register byte in range, an address outside the buffer is the fault, with its exact value
(R100, D16). -/
theorem exec_of_not_inBounds {rb : Byte} {off : Word} {g : Reg} (hwf : i.wf = true)
    (hm : memOperand i = some { base := rb, offset := off }) (hg : rb.toNat = g.index)
    (hout : ¬s.InBounds (s.ea g off)) :
    exec i s = .next (s.raise (.memoryOutOfBounds (s.ea g off))) := by
  have hbase : Reg.ofByte rb = some g := (Reg.ofByte_eq_some rb g).2 hg
  cases i with
  | nop | movRI | movFI | movRR => cases hm
  | movLD | movFLD =>
    cases hm
    obtain ⟨p, hp⟩ := Instr.ofByte_of_wf hwf (.head _)
    exact next_finish_of_error ((withRegs_some hp hbase _).trans (State.load_error _ p hout))
  | movST | movFST =>
    cases hm
    obtain ⟨q, hq⟩ := Instr.ofByte_of_wf hwf (.tail _ (.head _))
    exact next_finish_of_error ((withRegs_some hbase hq _).trans (State.store_error _ hout))
  | movSTI | movFSTI =>
    cases hm
    exact next_finish_of_error ((withReg_some hbase _).trans (State.store_error _ hout))

end Faults

/-! ### The loads and the stores that run -/

theorem exec_movFLD_of_inBounds {s : State} {rd : Byte} {src : MemIndirect} {p g : Reg}
    (hp : Reg.ofByte rd = some p) (hg : Reg.ofByte src.base = some g)
    (h : s.InBounds (s.ea g src.offset)) :
    exec (.movFLD rd src) s = .next ((s.advance 12).setReg .float p
      (le64 (Mem.readBytes s.mem (s.ea g src.offset).toNat 8))) := by
  rw [exec, execMovFLD, withRegs_some hp hg, State.load_ok h]
  rfl

/-- A form that stores does so at the effective address of its memory-indirect operand (R100). -/
theorem State.storeAddr_of_memOperand (s : State) {i : Instr} {rb : Byte} {off : Word} {g : Reg}
    (hi : storesMemory i = true) (hm : memOperand i = some { base := rb, offset := off })
    (hg : rb.toNat = g.index) : s.storeAddr i = some (s.ea g off) := by
  have hbase : Reg.ofByte rb = some g := (Reg.ofByte_eq_some rb g).2 hg
  cases i with
  | nop | movRI | movFI | movRR | movLD | movFLD => cases hi
  | movST | movSTI | movFST | movFSTI =>
    cases hm
    rw [State.storeAddr, hbase, Option.map_some]

/-- The effect and the frame of the four store forms (R102, R103, R105, R106). -/
theorem exists_exec_of_store {i : Instr} {n : Nat} {s : State} {rb : Byte} {off w : Word}
    {g : Reg} (hn : i.length = n) (hi : storesMemory i = true)
    (hm : memOperand i = some { base := rb, offset := off }) (hg : rb.toNat = g.index)
    (hw : s.storeValue i = some w) (hin : s.InBounds (s.ea g off)) :
    ∃ t, exec i s = .next t ∧ StoredWord s t (s.ea g off) w ∧
      (∀ r, t.x.get r = if r = .ip then s.x.ip + BitVec.ofNat 64 n else s.x.get r) ∧
      t.f = s.f ∧ SameRest s t :=
  ⟨_, hn ▸ exec_of_store (s.storeAddr_of_memOperand hi hm hg) hw hin,
    storedWord_storeWord (s.advance_mem _) hin.1 w, fun r => s.x.get_set .ip r _, rfl,
    rfl, rfl, rfl, rfl⟩

/-- The word a store leaves is what a read of its 8 bytes gives (R33, R41). -/
theorem le64_readBytes_of_exec_store {i : Instr} {s t : State} {addr : Int} {w : Word}
    (hwf : Mem.wf s.mem = true) (ha : s.storeAddr i = some addr) (hw : s.storeValue i = some w)
    (hin : s.InBounds addr) (h : exec i s = .next t) :
    le64 (Mem.readBytes t.mem addr.toNat 8) = w :=
  Mem.le64_readBytes_of_bytes ((exec_storedWord h ha hw hin).1 hwf)

/-- No instruction changes which addresses are in the buffer (R21). -/
theorem inBounds_of_exec {i : Instr} {s t : State} {addr : Int} (h : exec i s = .next t)
    (hin : s.InBounds addr) : t.InBounds addr := by
  obtain ⟨-, -, hcfg⟩ := exec_steps_code_cfg h
  rwa [State.InBounds, hcfg]

end Machine

/-! ### The obligations -/

/-- Settles O5, by the outcomes of `rd`, `rb` and the address in the order they are checked. -/
theorem movLdLoadsInteger : Obligations.MovLdLoadsInteger := by
  refine fun rd rb off =>
    ⟨runsAs_of_encode_eq (congrArg ([0x01#8, 0x04#8, rd, rb] ++ ·) (bytes64_eq off)),
      fun s p g hp hg hin => ?_, fun s => exec_of_first_regByte_bad rfl,
      fun s => exec_of_second_regByte_bad rfl,
      fun s g hrd hg =>
        exec_of_not_inBounds (by simp [Instr.wf_iff, Instr.regBytes, hrd, hg]) rfl hg⟩
  exact ⟨_, _, exec_movLD_of_inBounds ((Reg.ofByte_eq_some rd p).2 hp)
      ((Reg.ofByte_eq_some rb g).2 hg) hin, holdsWord_le64_readBytes s _,
    fun r => s.get_x_setReg_advance 12 p r _, rfl, rfl, sameRest_setReg_advance s ..⟩

/-- Settles O8, by the outcomes of `rd`, `rb` and the address in the order they are checked; the two register
files are apart, so no `rd` is a jump. -/
theorem movFldLoadsPattern : Obligations.MovFldLoadsPattern := by
  refine fun rd rb off =>
    ⟨runsAs_of_encode_eq (congrArg ([0x01#8, 0x07#8, rd, rb] ++ ·) (bytes64_eq off)),
      fun s p g hp hg hin => ?_, fun s => exec_of_first_regByte_bad rfl,
      fun s => exec_of_second_regByte_bad rfl,
      fun s g hrd hg =>
        exec_of_not_inBounds (by simp [Instr.wf_iff, Instr.regBytes, hrd, hg]) rfl hg⟩
  exact ⟨_, _, exec_movFLD_of_inBounds ((Reg.ofByte_eq_some rd p).2 hp)
      ((Reg.ofByte_eq_some rb g).2 hg) hin, holdsWord_le64_readBytes s _,
    fun r => s.f.get_set p r _, fun r => s.x.get_set .ip r _, rfl, sameRest_setReg_advance s ..⟩

/-- Settles O6, by the outcomes of `rb`, `rs` and the address in the order they are checked. -/
theorem movStStoresInteger : Obligations.MovStStoresInteger := by
  refine fun rb rs off =>
    ⟨runsAs_of_encode_eq (congrArg ([0x01#8, 0x05#8, rb] ++ · ++ [rs]) (bytes64_eq off)),
      fun s g q hg hq hin => exists_exec_of_store rfl rfl rfl hg ?_ hin,
      fun s => exec_of_first_regByte_bad rfl, fun s => exec_of_second_regByte_bad rfl,
      fun s g hg hrs =>
        exec_of_not_inBounds (by simp [Instr.wf_iff, Instr.regBytes, hg, hrs]) rfl hg⟩
  rw [State.storeValue, (Reg.ofByte_eq_some rs q).2 hq, Option.map_some]

/-- Settles O9, by the outcomes of `rb`, `rs` and the address in the order they are checked. -/
theorem movFstStoresPattern : Obligations.MovFstStoresPattern := by
  refine fun rb rs off =>
    ⟨runsAs_of_encode_eq (congrArg ([0x01#8, 0x08#8, rb] ++ · ++ [rs]) (bytes64_eq off)),
      fun s g q hg hq hin => exists_exec_of_store rfl rfl rfl hg ?_ hin,
      fun s => exec_of_first_regByte_bad rfl, fun s => exec_of_second_regByte_bad rfl,
      fun s g hg hrs =>
        exec_of_not_inBounds (by simp [Instr.wf_iff, Instr.regBytes, hg, hrs]) rfl hg⟩
  rw [State.storeValue, (Reg.ofByte_eq_some rs q).2 hq, Option.map_some]

/-- Settles O7, by the outcomes of `rb` and the address in the order they are checked. -/
theorem movStiStoresImmediate : Obligations.MovStiStoresImmediate := fun rb off imm =>
  ⟨runsAs_of_encode_eq
      (congrArg₂ ([0x01#8, 0x06#8, rb] ++ · ++ ·) (bytes64_eq off) (bytes64_eq imm)),
    fun s g hg hin => exists_exec_of_store rfl rfl rfl hg rfl hin,
    fun s => exec_of_first_regByte_bad rfl,
    fun s g hg => exec_of_not_inBounds (by simp [Instr.wf_iff, Instr.regBytes, hg]) rfl hg⟩

/-- Settles O10: the meaning is that of MOV.STI with the same operands, so its effect and its faults are. -/
theorem movFstiStoresPattern : Obligations.MovFstiStoresPattern := fun rb off fimm =>
  have ⟨_, hstore, hreg, haddr⟩ := movStiStoresImmediate rb off fimm
  ⟨runsAs_of_encode_eq
      (congrArg₂ ([0x01#8, 0x09#8, rb] ++ · ++ ·) (bytes64_eq off) (bytes64_eq fimm)),
    hstore, hreg, haddr, fun _ => rfl⟩

/-- Settles O12: the store leaves the address in the buffer and its word in the 8 bytes there, which either
load reads whole. -/
theorem loadAfterStoreReturnsStoredBits : Obligations.LoadAfterStoreReturnsStoredBits := by
  intro s t i addr w hwf ha hw hin h rd rb off p g hp hg hea
  have hrd : Reg.ofByte rd = some p := (Reg.ofByte_eq_some rd p).2 hp
  have hrb : Reg.ofByte rb = some g := (Reg.ofByte_eq_some rb g).2 hg
  have hin' : t.InBounds (t.ea g off) := hea ▸ inBounds_of_exec h hin
  have hread : le64 (Mem.readBytes t.mem (t.ea g off).toNat 8) = w :=
    hea ▸ le64_readBytes_of_exec_store hwf ha hw hin h
  exact ⟨⟨_, exec_movLD_of_inBounds hrd hrb hin', (RegFile.get_set_same _ p _).trans hread⟩,
    ⟨_, exec_movFLD_of_inBounds hrd hrb hin', (RegFile.get_set_same _ p _).trans hread⟩⟩

/-- Settles O16: the exact sum is in bounds only where all 8 bytes lie below `MEM_SIZE`. -/
theorem effectiveAddressNeverWraps : Obligations.EffectiveAddressNeverWraps := by
  intro s rb off
  obtain ⟨hlo, hhi⟩ := s.ea_range rb off
  refine ⟨rfl, hlo, hhi, fun hsize hout hin => ?_⟩
  obtain ⟨h0, h1⟩ := hin
  have hmax : Config.maxSize = 2 ^ 63 - 1 := rfl
  omega

end Sys2Proof
end

section
/-!
PROOFS. The interfaces (spec/50_interfaces.md): every state steps, the host's moves, and where an execution request
returns.
-/

namespace Sys2Proof

open Machine

namespace Machine

/-! ### Where a run ends and what it then answers (R78) -/

/-- The outcomes of the terminal states (R78). -/
theorem State.outcome?_eq_some {t : State} {o : RunOutcome} :
    t.outcome? = some o ↔ (t.engine = .halted ∧ o = .halted) ∨
      ∃ r, t.engine = .faulted r ∧ o = .faulted r.kind r.info := by
  rw [State.outcome?]
  cases t.engine <;> simp [eq_comm]

/-- A state has an outcome exactly where it is terminal (R78). -/
theorem State.exists_outcome?_iff {t : State} :
    (∃ o, t.outcome? = some o) ↔ t.engine ≠ .running := by
  rw [← Option.isSome_iff_exists, Option.isSome_iff_ne_none, Ne, State.outcome?_eq_none]

/-- The host is answered only by a turn that ends the run, with the outcome of the state it ends in. -/
theorem exists_runSteps_of_awaitAnswer {n : Nat} {s : State} {l' : Lifecycle} {ans : HostAnswer}
    (h : awaitAnswer n (.executing s) = some (l', ans)) :
    ∃ k t o, runSteps k s = .next t ∧ t.outcome? = some o ∧ l' = .atRest t ∧
      ans = .outcome o := by
  induction n generalizing s with
  | zero => cases h
  | succ n ih =>
    obtain ⟨u, hu⟩ := exists_step_eq_next s
    cases ho : u.outcome? with
    | none =>
      rw [awaitAnswer_of_running hu ((State.outcome?_eq_none u).1 ho)] at h
      obtain ⟨k, t, o, hk, hrest⟩ := ih h
      exact ⟨k + 1, t, o, (runSteps_succ hu k).trans hk, hrest⟩
    | some o =>
      rw [awaitAnswer_of_outcome hu ho] at h
      cases h
      exact ⟨1, u, o, runSteps_succ hu 0, ho, rfl, rfl⟩

/-- A run that is terminal after `k` steps is answered within `k + 1` turns: a terminal state that the wait
begins in takes one turn to be answered (R79). -/
theorem awaitAnswer_of_runSteps {k : Nat} {s t : State} {o : RunOutcome}
    (h : runSteps k s = .next t) (ho : t.outcome? = some o) :
    awaitAnswer (k + 1) (.executing s) = some (.atRest t, .outcome o) := by
  induction k generalizing s with
  | zero =>
    cases h
    exact awaitAnswer_of_outcome (step_of_not_running (State.exists_outcome?_iff.1 ⟨o, ho⟩)) ho 0
  | succ k ih =>
    obtain ⟨u, hu⟩ := exists_step_eq_next s
    rw [runSteps_succ hu] at h
    by_cases hr : u.engine = .running
    · exact (awaitAnswer_of_running hu hr (k + 1)).trans (ih h)
    · rw [runSteps_of_not_running hr] at h
      cases h
      exact awaitAnswer_of_outcome hu ho (k + 1)

/-! ### The host's moves (R130) -/

theorem hostMove_construct_of_ok {p : Params} {s : State} (h : construct p = .ok s) :
    hostMove .noInstance (.construct p) = .ok (.atRest s, some .constructed) := by
  simp only [hostMove, h]

theorem hostMove_construct_of_error {p : Params} {c : ConstructionFault}
    (h : construct p = .error c) :
    hostMove .noInstance (.construct p) = .ok (.noInstance, some (.constructionFault c)) := by
  simp only [hostMove, h]

/-- Before construction the host can only construct. -/
theorem hostMove_noInstance {a : HostAction} (h : ∀ p, a ≠ .construct p) :
    hostMove .noInstance a = .error .instanceMissing := by
  cases a with
  | construct p => exact absurd rfl (h p)
  | execute => rfl
  | readStatus => rfl
  | readRegister k r => rfl
  | destroy => rfl

/-- An execution request is refused in `Faulted` (R174). -/
theorem hostMove_execute_of_faulted {s : State} {r : FaultRecord} (h : s.engine = .faulted r) :
    hostMove (.atRest s) .execute = .error .instanceFaulted := by
  simp only [hostMove, requestExecution, h]

/-- The answer of an accepted execution request is the one the turns after its reset give. -/
theorem hostCall_execute {s : State} (h : ∀ r, s.engine ≠ .faulted r) {l' : Lifecycle}
    {ans : HostAnswer} :
    HostCall (.atRest s) .execute l' ans ↔
      ∃ n, awaitAnswer n (.executing s.requestReset) = some (l', ans) := by
  simp [HostCall, hostMove_execute h]

/-- An accepted execution request returns exactly where its run ends, with the outcome there (R78, R128). -/
theorem hostCall_execute_iff {s : State} (h : ∀ r, s.engine ≠ .faulted r) {l' : Lifecycle}
    {ans : HostAnswer} :
    HostCall (.atRest s) .execute l' ans ↔
      ∃ t o, ExecutesTo s t ∧ t.outcome? = some o ∧ l' = .atRest t ∧ ans = .outcome o := by
  rw [hostCall_execute h]
  constructor
  · rintro ⟨n, hn⟩
    obtain ⟨k, t, o, hk, ho, hrest⟩ := exists_runSteps_of_awaitAnswer hn
    exact ⟨t, o, ⟨k, hk, State.exists_outcome?_iff.1 ⟨o, ho⟩⟩, ho, hrest⟩
  · rintro ⟨t, o, ⟨k, hk, -⟩, ho, rfl, rfl⟩
    exact ⟨k + 1, awaitAnswer_of_runSteps hk ho⟩

end Machine

/-! ### The obligations -/

/-- Settles O51: the wait follows the run turn by turn, and a budget ends the run. -/
theorem executeReturnsWhenTheRunEnds : Obligations.ExecuteReturnsWhenTheRunEnds := by
  refine fun s hs => ⟨fun l' ans => ?_, fun hrun l' ans hcall => ?_, fun n hn => ?_⟩
  · rw [hostCall_execute_iff hs]
    refine exists_congr fun t => ?_
    simp only [State.outcome?_eq_some]
    constructor
    · rintro ⟨o, hex, ⟨he, rfl⟩ | ⟨r, he, rfl⟩, hl, hans⟩
      · exact ⟨hex, hl, .inl ⟨he, hans⟩⟩
      · exact ⟨hex, hl, .inr ⟨r, he, hans⟩⟩
    · rintro ⟨hex, hl, ⟨he, hans⟩ | ⟨r, he, hans⟩⟩
      · exact ⟨_, hex, .inl ⟨he, rfl⟩, hl, hans⟩
      · exact ⟨_, hex, .inr ⟨r, he, rfl⟩, hl, hans⟩
  · obtain ⟨t, o, ⟨k, hk, he⟩, -⟩ := (hostCall_execute_iff hs).1 hcall
    exact he (hrun k t hk)
  · obtain ⟨k, t, -, hk, he⟩ := budgetEndsEveryExecution s n hn
    obtain ⟨o, ho⟩ := State.exists_outcome?_iff.2 he
    exact ⟨_, _, (hostCall_execute_iff hs).2 ⟨t, o, ⟨k, hk, he⟩, ho, rfl, rfl⟩⟩

/-- Settles O31: a step ends in one of four ways, each a next state. -/
theorem everyStateSteps : Obligations.EveryStateSteps := exists_step_eq_next

/-- Settles O48, by where the host stands and the move. -/
theorem hostMovesFollowTheProtocol : Obligations.HostMovesFollowTheProtocol :=
  ⟨fun _ _ => hostMove_construct_of_ok, fun _ _ => hostMove_construct_of_error,
    fun _ => hostMove_noInstance, fun _ _ => rfl, fun _ _ => hostMove_execute_of_faulted,
    fun _ => hostMove_execute, fun _ => ⟨rfl, fun _ => rfl, fun _ => rfl, rfl⟩,
    hostMove_executing⟩

end Sys2Proof
end

section
/-!
PROOFS. Exceptions (spec/60_exceptions.md): why a decode faults, the fault of an instruction and of a step read off
the raw bytes in the order of R148, what a fault leaves, and the invariant of every step.
-/

namespace Sys2Proof

open Machine

/-! ### The fields of a mode, as the decoder reads them (R54, R55) -/

/-- The widths of the code reads of one operand kind: a memory-indirect operand is two reads (R54, R74). -/
def OperandKind.fieldWidths : OperandKind → List Nat
  | .intReg | .floatReg => [1]
  | .int64Immediate | .float64Immediate => [8]
  | .memoryIndirect => [1, 8]
  | .none => []

/-- Consecutive fields of these widths from an offset on, as `modeFields` lists them. -/
def fieldsFrom : Nat → List Nat → List (Nat × Nat)
  | _, [] => []
  | o, w :: ws => (o, w) :: fieldsFrom (o + w) ws

/-- The first field of an instruction at `ip0` that ends outside the code buffer. -/
def firstShortField (code : List Byte) (ip0 : Int) (fields : List (Nat × Nat)) :
    Option (Nat × Nat) :=
  fields.find? fun p => (code.length : Int) < ip0 + p.1 + p.2

/-- The fault is the overrun at the first of these fields that ends outside the code buffer (R145). -/
def OverrunsAtField (code : List Byte) (ip0 : Int) (fields : List (Nat × Nat))
    (e : DecodeFault) : Prop :=
  ∃ p, firstShortField code ip0 fields = some p ∧ e = .codeBufferOverrun (ip0 + p.1)

/-- The fields of a known mode are the code reads of its form's operands, from offset 2 on (R55). -/
theorem modeFields_of_lookupMode {m : Byte} {fm : Form} (h : lookupMode m = some fm) :
    modeFields m.toNat = fieldsFrom 2 (fm.operandKinds.flatMap OperandKind.fieldWidths) := by
  have hh := lookupMode_eq_some.1 h
  cases fm <;> cases hh <;> rfl

/-- The fields of a known mode are at most 8 bytes wide and end with the instruction (R55). -/
theorem modeFields_bounds {m : Byte} {fm : Form} (h : lookupMode m = some fm) :
    ∀ p ∈ modeFields m.toNat, p.2 ≤ 8 ∧ p.1 + p.2 ≤ fm.length := by
  have hh := lookupMode_eq_some.1 h
  cases fm <;> cases hh <;> decide

section Fields

variable {code : List Byte} {ip0 cur : Int} {o w : Nat} {ws : List Nat} {e : DecodeFault}

theorem firstShortField_cons_of_short (h : (code.length : Int) < ip0 + o + w) :
    firstShortField code ip0 (fieldsFrom o (w :: ws)) = some (o, w) := by
  simp [firstShortField, fieldsFrom, h]

theorem firstShortField_cons_of_fits (h : ip0 + o + w ≤ code.length) :
    firstShortField code ip0 (fieldsFrom o (w :: ws)) =
      firstShortField code ip0 (fieldsFrom (o + w) ws) := by
  simp [firstShortField, fieldsFrom, h]

/-- A byte read that fails at an offset that is not negative overruns at its own field. -/
theorem overrunsAtField_of_readByte_error (h0 : 0 ≤ ip0 + o)
    (h : readByte code (ip0 + o) = .error e) :
    OverrunsAtField code ip0 (fieldsFrom o (1 :: ws)) e := by
  obtain ⟨rfl, hout⟩ := readByte_error h
  exact ⟨_, firstShortField_cons_of_short (by omega), rfl⟩

theorem overrunsAtField_of_readInt64_error (h0 : 0 ≤ ip0 + o)
    (h : readInt64 code (ip0 + o) = .error e) :
    OverrunsAtField code ip0 (fieldsFrom o (8 :: ws)) e := by
  obtain ⟨rfl, hout⟩ := readInt64_error h
  exact ⟨_, firstShortField_cons_of_short (by omega), rfl⟩

/-- An operand that is not read overruns at its first short field (R74). -/
theorem OperandKind.overrunsAtField_of_read_error {k : OperandKind} (h0 : 0 ≤ ip0 + o)
    (h : k.read code (ip0 + o) = .error e) :
    OverrunsAtField code ip0 (fieldsFrom o (k.fieldWidths ++ ws)) e := by
  cases k with
  | intReg | floatReg => exact overrunsAtField_of_readByte_error h0 h
  | int64Immediate | float64Immediate => exact overrunsAtField_of_readInt64_error h0 h
  | none => cases h
  | memoryIndirect =>
    rw [OperandKind.read] at h
    split at h
    · next hb =>
      cases h
      exact overrunsAtField_of_readByte_error h0 hb
    · next base cur1 hb =>
      obtain ⟨-, hle, rfl⟩ := readByte_ok hb
      split at h
      · next ho =>
        cases h
        rw [OverrunsAtField, OperandKind.fieldWidths, List.cons_append,
          firstShortField_cons_of_fits (by omega)]
        refine overrunsAtField_of_readInt64_error (by omega) ?_
        rwa [Nat.cast_add, Nat.cast_one, ← Int.add_assoc]
      · cases h

/-- An operand that is read has no short field (R74). -/
theorem OperandKind.firstShortField_of_read_ok {k : OperandKind} {v : k.Value}
    (h : k.read code (ip0 + o) = .ok (v, cur)) :
    firstShortField code ip0 (fieldsFrom o (k.fieldWidths ++ ws)) =
      firstShortField code ip0 (fieldsFrom (o + k.width) ws) := by
  cases k with
  | intReg | floatReg =>
    obtain ⟨-, hle, -⟩ := readByte_ok h
    exact firstShortField_cons_of_fits hle
  | int64Immediate | float64Immediate =>
    obtain ⟨-, hle, -⟩ := readInt64_ok h
    exact firstShortField_cons_of_fits hle
  | none => rfl
  | memoryIndirect =>
    rw [OperandKind.read] at h
    split at h
    · cases h
    · next base cur1 hb =>
      obtain ⟨-, hle, rfl⟩ := readByte_ok hb
      split at h
      · cases h
      · next off cur2 ho =>
        obtain ⟨-, hle', -⟩ := readInt64_ok ho
        rw [OperandKind.fieldWidths, List.cons_append, firstShortField_cons_of_fits (by omega)]
        exact firstShortField_cons_of_fits (by omega)

/-- Operands that are not all read overrun at their first short field (R74). -/
theorem overrunsAtField_of_decodeOperands_error {ks : List OperandKind} (h0 : 0 ≤ ip0 + o)
    (hoff : ip0 + o ≤ code.length) (h : decodeOperands code ks (ip0 + o) = .error e) :
    OverrunsAtField code ip0 (fieldsFrom o (ks.flatMap OperandKind.fieldWidths)) e := by
  induction ks generalizing o with
  | nil => cases h
  | cons k ks ih =>
    rw [List.flatMap_cons]
    rw [decodeOperands] at h
    split at h
    · next hk =>
      cases h
      exact OperandKind.overrunsAtField_of_read_error h0 hk
    · next v cur hk =>
      obtain ⟨rfl, hle⟩ := OperandKind.read_ok hoff hk
      rw [Int.add_assoc, ← Nat.cast_add] at h hle
      rw [OverrunsAtField, OperandKind.firstShortField_of_read_ok hk]
      split at h
      · next hks =>
        cases h
        exact ih (by omega) hle hks
      · cases h

end Fields

/-! ### Why a decode faults (R148, items 2 to 6) -/

/-- The ModeTable rejects only 0 and 10 to 255 (R60, D3). -/
theorem lookupMode_eq_none_iff {m : Byte} : lookupMode m = none ↔ m.toNat = 0 ∨ 10 ≤ m.toNat := by
  refine ⟨fun h => ?_, lookupMode_eq_none⟩
  have hrow := List.find?_eq_none.1 (Option.map_eq_none_iff.1 h)
  simp only [modeTable, List.forall_mem_cons, beq_iff_eq] at hrow
  bv_omega

/-- Why a byte stream holds no instruction at `ip0`, in the order in which the bytes are read: no opcode byte, an
unknown opcode, no mode byte, an unknown mode, or an operand field that is short (R71, R73, R74). -/
inductive DecodeFails (code : List Byte) (ip0 : Int) : DecodeFault → Prop where
  | noOpcode (h : ip0 < 0 ∨ (code.length : Int) ≤ ip0) :
    DecodeFails code ip0 (.codeBufferOverrun ip0)
  | unknownOpcode {op : Byte} (hat : CodeAt code ip0 [op]) (hop : 2 ≤ op.toNat) :
    DecodeFails code ip0 (.unknownOpcode op)
  | noMode (hat : CodeAt code ip0 [0x01#8]) (h : (code.length : Int) ≤ ip0 + 1) :
    DecodeFails code ip0 (.codeBufferOverrun (ip0 + 1))
  | unknownMode {m : Byte} (hat : CodeAt code ip0 [0x01#8, m])
      (hm : m.toNat = 0 ∨ 10 ≤ m.toNat) : DecodeFails code ip0 (.unknownMode m)
  | shortField {m : Byte} {fm : Form} {p : Nat × Nat} (hat : CodeAt code ip0 [0x01#8, m])
      (hm : lookupMode m = some fm)
      (hp : firstShortField code ip0 (modeFields m.toNat) = some p)
      (hle : ip0 + p.1 ≤ code.length) :
    DecodeFails code ip0 (.codeBufferOverrun (ip0 + p.1))

section Fails

variable {code : List Byte} {ip0 : Int} {e : DecodeFault}

/-- Everything that makes fetch and dispatch fail (R71, R73). -/
theorem decodeFails_of_dispatchForm_error (h : dispatchForm code ip0 = .error e) :
    DecodeFails code ip0 e := by
  rw [dispatchForm] at h
  split at h
  · next hop =>
    cases h
    obtain ⟨rfl, hout⟩ := readByte_error hop
    exact .noOpcode (by omega)
  · next op cur hop =>
    obtain ⟨hat, hle, rfl⟩ := readByte_ok hop
    rcases opcode_cases op with rfl | rfl | hop2
    · cases h
    · simp only [lookupOpcode_mov, if_true] at h
      split at h
      · next hm =>
        cases h
        obtain ⟨rfl, hout⟩ := readByte_error hm
        have h0 : 0 ≤ ip0 := hat.1
        exact .noMode hat (by omega)
      · next m cur hm =>
        obtain ⟨hat', -, rfl⟩ := readByte_ok hm
        split at h
        · next hmode =>
          cases h
          exact .unknownMode (codeAt_append_iff (bs := [0x01#8]).2 ⟨hat, hat'⟩)
            (lookupMode_eq_none_iff.1 hmode)
        · cases h
    · rw [lookupOpcode_eq_none hop2] at h
      cases h
      exact .unknownOpcode hat hop2

/-- Everything that makes a decode fail (R71, R73, R74). -/
theorem decodeFails_of_decodeAt_error (h : decodeAt code ip0 = .error e) :
    DecodeFails code ip0 e := by
  rw [decodeAt] at h
  split at h
  · next hd =>
    cases h
    exact decodeFails_of_dispatchForm_error hd
  · next fm cur hd =>
    obtain ⟨h0, rfl, hle⟩ := dispatchForm_ok hd
    split at h
    · next ho =>
      cases h
      have hat := codeAt_header_of_dispatchForm hd
      rcases fm.header_cases with rfl | ⟨m, hfm, hm⟩
      · cases ho
      · rw [hfm] at ho hat hle
        obtain ⟨p, hp, rfl⟩ := overrunsAtField_of_decodeOperands_error (o := 2) (by omega) hle ho
        obtain ⟨cur, -, hcur, he⟩ := overrunsFrom_of_decodeOperands_error hle ho
        cases he
        rw [← modeFields_of_lookupMode hm] at hp
        exact .shortField hat hm hp hcur
    · cases h

end Fails

/-- A field found short is one of the fields, and ends past the code buffer. -/
theorem of_firstShortField_eq_some {code : List Byte} {ip0 : Int} {fields : List (Nat × Nat)}
    {p : Nat × Nat} (h : firstShortField code ip0 fields = some p) :
    p ∈ fields ∧ (code.length : Int) < ip0 + p.1 + p.2 := by
  have hp := List.find?_some h
  exact ⟨List.mem_of_find?_eq_some h, of_decide_eq_true hp⟩

namespace Machine

/-! ### The faults of an instruction and of a step (R149, R153) -/

/-- An instruction of a running engine that faults raises `RegisterIndexOutOfRange` of a register byte of its own, or
`MemoryOutOfBounds` of its own effective address. -/
theorem exec_raise_cases {i : Instr} {s t : State} {r : FaultRecord} (hrun : s.engine = .running)
    (h : exec i s = .next t) (ht : t.engine = .faulted r) :
    t = s.raise r ∧
      ((∃ k b, (k, b) ∈ i.regBytes ∧ 8 ≤ b.toNat ∧ r = .registerIndexOutOfRange b) ∨
        ∃ m rb, memOperand i = some m ∧ Reg.ofByte m.base = some rb ∧
          ¬s.InBounds (s.ea rb m.offset) ∧ r = .memoryOutOfBounds (s.ea rb m.offset)) := by
  rcases exec_inversion i s with ⟨-, e⟩ | ⟨k, b, hb, hb8, e⟩ | ⟨m, rb, hm, hrb, hout, e⟩ |
    ⟨k, b, p, w, -, -, -, e⟩ | ⟨m, rb, w, -, -, -, -, -, -, -, e⟩ <;>
    obtain rfl := Host.Outcome.next.inj (e.symm.trans h)
  · cases ht
  · cases ht
    exact ⟨rfl, .inl ⟨k, b, hb, hb8, rfl⟩⟩
  · cases ht
    exact ⟨rfl, .inr ⟨m, rb, hm, hrb, hout, rfl⟩⟩
  · rw [State.setReg_engine, State.advance_engine, hrun] at ht
    cases ht
  · rw [State.storeWord_engine, State.advance_engine, hrun] at ht
    cases ht

/-! ### The invariant (R150) -/

theorem State.legal_memoryOutOfBounds {s : State} {rb : Reg} {off : Word}
    (h : ¬s.InBounds (s.ea rb off)) : s.Legal (.memoryOutOfBounds (s.ea rb off)) := by
  obtain ⟨hlo, hhi⟩ := s.ea_range rb off
  unfold State.InBounds at h
  exact ⟨hlo, hhi, by omega⟩

/-- What the fetch unit and the decoder raise at `IP` has its `info` in range: a cursor stays below `2^63`, since
the reads before it lie in the code buffer. -/
theorem State.legal_recordOf {s : State} {e : DecodeFault} (hlen : s.code.length ≤ Config.maxSize)
    (h : DecodeFails s.code s.x.ip.toInt e) : s.Legal (recordOf e) := by
  have hlo := s.x.ip.le_toInt
  have hhi := s.x.ip.toInt_lt
  have hmax : Config.maxSize = 2 ^ 63 - 1 := rfl
  cases h with
  | unknownOpcode hat hop => exact hop
  | unknownMode hat hm => exact hm
  | noOpcode h => exact ⟨by omega, by omega, by omega⟩
  | noMode hat h =>
    have hin := hat.2.length_le
    rw [List.length_drop, List.length_singleton] at hin
    exact ⟨by omega, by omega, by omega⟩
  | shortField hat hm hp hle =>
    obtain ⟨hmem, hshort⟩ := of_firstShortField_eq_some hp
    obtain ⟨hwidth, -⟩ := modeFields_bounds hm _ hmem
    exact ⟨by omega, by omega, by omega⟩

namespace State.Inv

variable {s t : State} (hs : s.Inv)
include hs

/-- A state that differs in its registers and in memory only meets the invariant if the memory does. -/
theorem of_sameRest (h : SameRest s t) (hwf : Mem.wf t.mem = true)
    (hbelow : Mem.below t.mem s.cfg.memSize = true) : t.Inv := by
  obtain ⟨he, hsteps, hcode, hcfg⟩ := h
  refine ⟨hwf, by rwa [hcfg], by rw [hcfg]; exact hs.memSize, by rw [hcode]; exact hs.codeLen,
    by rw [hcfg]; exact hs.layout, by rw [hcfg, hsteps]; exact hs.budget, fun r hr => ?_⟩
  have hlegal := hs.record r (he ▸ hr)
  cases r <;> simpa only [State.Legal, hcode, hcfg, hsteps] using hlegal

theorem raise {r : FaultRecord} (hr : s.Legal r) : (s.raise r).Inv where
  memWf := hs.memWf
  memBelow := hs.memBelow
  memSize := hs.memSize
  codeLen := hs.codeLen
  layout := hs.layout
  budget := hs.budget
  record := by
    rintro r' ⟨⟩
    cases r <;> exact hr

theorem halt : s.halt.Inv where
  memWf := hs.memWf
  memBelow := hs.memBelow
  memSize := hs.memSize
  codeLen := hs.codeLen
  layout := hs.layout
  budget := hs.budget
  record := fun _ hr => by cases hr

/-- The counter stays within the budget in a step that passes the budget check (R20, R72). -/
theorem countStep (hr : s.Ready) : s.countStep.Inv where
  memWf := hs.memWf
  memBelow := hs.memBelow
  memSize := hs.memSize
  codeLen := hs.codeLen
  layout := hs.layout
  budget := fun _ hn => (hr.countStep_steps_le hn).2
  record := fun r he => by cases hr.1.symm.trans he

/-- Every instruction keeps the invariant. -/
theorem of_exec {i : Instr} (h : exec i s = .next t) : t.Inv := by
  rcases exec_inversion i s with ⟨-, e⟩ | ⟨k, b, -, hb, e⟩ | ⟨m, rb, -, -, hout, e⟩ |
    ⟨k, b, p, w, -, -, -, e⟩ | ⟨m, rb, w, -, -, -, -, -, -, ⟨h0, h1⟩, e⟩ <;>
    obtain rfl := Host.Outcome.next.inj (e.symm.trans h)
  · exact hs.halt
  · exact hs.raise hb
  · exact hs.raise (State.legal_memoryOutOfBounds hout)
  · have hmem : ((s.advance i.length).setReg k p w).mem = s.mem := State.setReg_mem ..
    exact hs.of_sameRest (sameRest_setReg_advance ..) (hmem ▸ hs.memWf) (hmem ▸ hs.memBelow)
  · exact hs.of_sameRest ⟨rfl, rfl, rfl, rfl⟩ (State.storeWord_wf _ _ hs.memWf)
      (State.storeWord_below _ (by omega) hs.memBelow)

/-- A step keeps the invariant: each of its faults is legal, and its instruction keeps it. -/
theorem of_step (h : step s = .next t) : t.Inv := by
  rcases step_cases s with ⟨-, e⟩ | ⟨-, r, hb, e⟩ | ⟨hr, f, hd, e⟩ | ⟨hr, i, cur, -, e⟩
  · obtain rfl := Host.Outcome.next.inj (e.symm.trans h)
    exact hs
  · obtain rfl := Host.Outcome.next.inj (e.symm.trans h)
    obtain ⟨n, hn, hle, rfl⟩ := State.budgetFault_eq_some hb
    exact hs.raise ⟨hn, hle⟩
  · obtain rfl := Host.Outcome.next.inj (e.symm.trans h)
    exact (hs.countStep hr).raise
      (State.legal_recordOf (s := s.countStep) hs.codeLen (decodeFails_of_decodeAt_error hd))
  · exact (hs.countStep hr).of_exec (e.symm.trans h)

end State.Inv

/-! ### The raw bytes that an instruction leaves to its step (R55, R148) -/

/-- A byte that stands at `IP + k`. -/
theorem State.codeByte_of_codeAtIp {s : State} {bs : List Byte} {k : Nat} {b : Byte}
    (h : s.CodeAtIp bs) (hb : bs[k]? = some b) : s.codeByte k = some b := by
  obtain ⟨h0, hp⟩ := h
  obtain ⟨hk, rfl⟩ := List.getElem?_eq_some_iff.1 hb
  rw [State.codeByte, if_neg (by omega), Int.toNat_add_nat h0, ← List.getElem?_drop]
  exact List.prefix_iff_getElem?.1 hp k hk

theorem State.codeByte_eq_none {s : State} {k : Nat}
    (h : s.x.ip.toInt + k < 0 ∨ s.code.length ≤ s.x.ip.toInt + k) : s.codeByte k = none := by
  rw [State.codeByte]
  split
  · rfl
  · exact List.getElem?_eq_none (by omega)

/-- A word whose bytes stand after others at `IP`. -/
theorem State.codeWord_of_codeAtIp {s : State} {pre post : List Byte} {w : Word}
    (h : s.CodeAtIp (pre ++ (bytes64 w ++ post))) : s.codeWord pre.length = w := by
  obtain ⟨-, hp⟩ := codeAt_left (codeAt_append h)
  have htake := List.prefix_iff_eq_take.1 hp
  rw [bytes64_length] at htake
  rw [State.codeWord, ← htake, le64_bytes64]

/-! ### The fault of an instruction (R148, items 7 and 8) -/

/-- The register bytes of an instruction are none, one or two. -/
theorem regBytes_cases (i : Instr) :
    i.regBytes = [] ∨ (∃ k b, i.regBytes = [(k, b)]) ∨
      ∃ k b k' b', i.regBytes = [(k, b), (k', b')] := by
  cases i with
  | nop => exact .inl rfl
  | movRI | movFI | movSTI | movFSTI => exact .inr (.inl ⟨_, _, rfl⟩)
  | movRR | movLD | movST | movFLD | movFST => exact .inr (.inr ⟨_, _, _, _, rfl⟩)

/-- The first register byte of an instruction that is out of range. -/
def badRegByte (i : Instr) : Option Byte :=
  (i.regBytes.map Prod.snd).find? fun b => 8 ≤ b.toNat

/-- The address an instruction accesses, where it has one and its base byte names a register. -/
def State.accessAddr (s : State) (i : Instr) : Option Int :=
  (memOperand i).bind fun m => (Reg.ofByte m.base).map fun rb => s.ea rb m.offset

/-- The fault an instruction ends in: the first register byte out of range, else the address out of bounds. -/
def State.instrFault (s : State) (i : Instr) : Option FaultRecord :=
  match badRegByte i with
  | some b => some (.registerIndexOutOfRange b)
  | none =>
    match s.accessAddr i with
    | none => none
    | some a =>
      if a < 0 ∨ (s.cfg.memSize : Int) < a + 8 then some (.memoryOutOfBounds a) else none

theorem State.not_inBounds_iff {s : State} {a : Int} :
    ¬s.InBounds a ↔ a < 0 ∨ (s.cfg.memSize : Int) < a + 8 := by
  rw [State.InBounds]
  omega

theorem wf_of_badRegByte_eq_none {i : Instr} (h : badRegByte i = none) : i.wf = true := by
  have hall := List.find?_eq_none.1 h
  refine (Instr.wf_iff i).2 fun kb hkb => ?_
  have := hall kb.2 (List.mem_map_of_mem hkb)
  simp only [decide_eq_true_eq] at this
  omega

/-- The base byte of a well-formed instruction names a register (R58, R100). -/
theorem exists_base_of_wf {i : Instr} {m : MemIndirect} (hwf : i.wf = true)
    (hm : memOperand i = some m) : ∃ g, Reg.ofByte m.base = some g := by
  have hmem : (.int, m.base) ∈ i.regBytes := by
    cases i <;> cases hm <;> simp [Instr.regBytes]
  exact Instr.ofByte_of_wf hwf hmem

section InstrFault

variable {i : Instr} {s : State}

theorem State.accessAddr_eq_some {a : Int} :
    s.accessAddr i = some a ↔
      ∃ m g, memOperand i = some m ∧ Reg.ofByte m.base = some g ∧ s.ea g m.offset = a := by
  simp [State.accessAddr, Option.bind_eq_some_iff]

/-- The first register byte out of range is the fault, whatever the others and the address (R75). -/
theorem exec_of_badRegByte {b : Byte} (h : badRegByte i = some b) :
    exec i s = .next (s.raise (.registerIndexOutOfRange b)) := by
  rcases regBytes_cases i with hi | ⟨k, c, hi⟩ | ⟨k, c, k', c', hi⟩
  · simp [badRegByte, hi] at h
  · obtain ⟨hc, rfl⟩ : 8 ≤ c.toNat ∧ c = b := by simpa [badRegByte, hi] using h
    exact exec_of_first_regByte_bad hi hc
  · have hcases : 8 ≤ c.toNat ∧ c = b ∨ c.toNat < 8 ∧ 8 ≤ c'.toNat ∧ c' = b := by
      simpa [badRegByte, hi] using h
    rcases hcases with ⟨hc, rfl⟩ | ⟨hc, hc', rfl⟩
    · exact exec_of_first_regByte_bad hi hc
    · exact exec_of_second_regByte_bad hi (Nat.le_of_lt_succ hc) hc'

/-- A MOV of a running engine goes on where its register bytes are in range and so is its address, if it has one. -/
theorem exists_exec_running (hrun : s.engine = .running) (hnop : i ≠ .nop) (hwf : i.wf = true)
    (hin : ∀ a, s.accessAddr i = some a → s.InBounds a) :
    ∃ t, exec i s = .next t ∧ t.engine = .running := by
  rcases exec_inversion i s with ⟨hi, -⟩ | ⟨k, b, hb, hb8, -⟩ | ⟨m, rb, hm, hrb, hout, -⟩ |
    ⟨k, b, p, w, -, -, -, e⟩ | ⟨m, rb, w, -, -, -, -, -, -, -, e⟩
  · exact absurd hi hnop
  · have hle : b.toNat ≤ 7 := (Instr.wf_iff i).1 hwf (k, b) hb
    omega
  · exact absurd (hin _ (State.accessAddr_eq_some.2 ⟨m, rb, hm, hrb, rfl⟩)) hout
  · exact ⟨_, e, (State.setReg_engine ..).trans hrun⟩
  · exact ⟨_, e, hrun⟩

/-- A MOV of a running engine faults as `instrFault` says, and goes on where that is none. -/
theorem exists_exec_instrFault (hrun : s.engine = .running) (hnop : i ≠ .nop) :
    ∃ t, exec i s = .next t ∧ t.engine = (s.instrFault i).elim .running .faulted := by
  cases hb : badRegByte i with
  | some b => exact ⟨_, exec_of_badRegByte hb, by simp [State.instrFault, hb]⟩
  | none =>
    have hwf := wf_of_badRegByte_eq_none hb
    cases ha : s.accessAddr i with
    | none =>
      simpa [State.instrFault, hb, ha] using exists_exec_running hrun hnop hwf (by simp [ha])
    | some a =>
      by_cases hin : s.InBounds a
      · have hok : ¬(a < 0 ∨ (s.cfg.memSize : Int) < a + 8) :=
          fun h => State.not_inBounds_iff.2 h hin
        simpa [State.instrFault, hb, ha, hok] using
          exists_exec_running hrun hnop hwf (by simp [ha, hin])
      · obtain ⟨m, g, hm, hg, rfl⟩ := State.accessAddr_eq_some.1 ha
        refine ⟨_, exec_of_not_inBounds hwf hm ((Reg.ofByte_eq_some _ g).1 hg) hin, ?_⟩
        simp [State.instrFault, hb, ha, State.not_inBounds_iff.1 hin]

end InstrFault

/-! ### The operand fault of a step is the fault of its instruction -/

section RawBytes

variable {i : Instr} {s : State} {m : Byte}

/-- A memory form is one of modes 4 to 9, the others are not (R53). -/
theorem four_le_mode_iff (hm : lookupMode m = some i.form) :
    4 ≤ m.toNat ↔ (memOperand i).isSome := by
  have hh := lookupMode_eq_some.1 hm
  cases i <;> cases hh <;> simp [memOperand]

/-- The register bytes of a mode are those of its instruction (R55). -/
theorem encode_getElem?_modeRegs (hm : lookupMode m = some i.form) :
    (modeRegs m.toNat).map (fun o => (encode i)[o]?) = (i.regBytes.map Prod.snd).map some := by
  have hh := lookupMode_eq_some.1 hm
  cases i <;> cases hh <;> rfl

/-- Where the base byte and the offset of a memory-indirect operand stand (R55). -/
theorem encode_modeMem {src : MemIndirect} (hm : lookupMode m = some i.form)
    (hsrc : memOperand i = some src) :
    (encode i)[(modeMem m.toNat).1]? = some src.base ∧
      ∃ pre post, encode i = pre ++ (bytes64 src.offset ++ post) ∧
        pre.length = (modeMem m.toNat).2 := by
  have hh := lookupMode_eq_some.1 hm
  cases i with
  | nop | movRI | movFI | movRR => cases hsrc
  | movLD rd | movFLD rd =>
    cases hsrc
    cases hh
    exact ⟨rfl, [0x01#8, _, rd, src.base], [], rfl, rfl⟩
  | movST dst rs | movFST dst rs =>
    cases hsrc
    cases hh
    exact ⟨rfl, [0x01#8, _, src.base], [rs], rfl, rfl⟩
  | movSTI dst imm | movFSTI dst imm =>
    cases hsrc
    cases hh
    exact ⟨rfl, [0x01#8, _, src.base], bytes64 imm ++ [], rfl, rfl⟩

variable (hat : s.CodeAtIp (encode i)) (hm : lookupMode m = some i.form)
include hat hm

/-- No field of an instruction that stands at `IP` is short. -/
theorem firstShortField_of_codeAtIp :
    firstShortField s.code s.x.ip.toInt (modeFields m.toNat) = none := by
  obtain ⟨-, -, hlen⟩ := decodeAt_bounds (decodeAt_of_codeAt hat)
  rw [Instr.length] at hlen
  refine List.find?_eq_none.2 fun p hp => ?_
  obtain ⟨hwidth, hend⟩ := modeFields_bounds hm p hp
  simp only [decide_eq_true_eq]
  omega

/-- The register check of a step is that of its instruction (R75). -/
theorem findSome?_modeRegs :
    ((modeRegs m.toNat).findSome? fun o => (s.codeByte o).filter fun r => 8 ≤ r.toNat) =
      badRegByte i := by
  have hbytes : (modeRegs m.toNat).map s.codeByte = (i.regBytes.map Prod.snd).map some := by
    rw [← encode_getElem?_modeRegs hm]
    refine List.map_congr_left fun o ho => ?_
    have hmem : (encode i)[o]? ∈ (i.regBytes.map Prod.snd).map some := by
      rw [← encode_getElem?_modeRegs hm]
      exact List.mem_map_of_mem ho
    obtain ⟨b, -, hb⟩ := List.mem_map.1 hmem
    rw [State.codeByte_of_codeAtIp hat hb.symm, hb]
  have hmap := List.findSome?_map (f := s.codeByte) (l := modeRegs m.toNat)
    (p := Option.filter fun r => 8 ≤ r.toNat)
  rw [hbytes, List.findSome?_map] at hmap
  exact hmap.symm.trans List.find?_eq_findSome?_guard.symm

/-- The address of a step's access is that of its instruction (R100). -/
theorem rawAddr_of_accessAddr {a : Int} (ha : s.accessAddr i = some a) :
    s.rawAddr m.toNat = a := by
  obtain ⟨src, g, hsrc, hg, rfl⟩ := State.accessAddr_eq_some.1 ha
  obtain ⟨hbase, pre, post, henc, hpre⟩ := encode_modeMem hm hsrc
  have hword : s.codeWord (modeMem m.toNat).2 = src.offset := by
    rw [henc] at hat
    rw [← hpre, State.codeWord_of_codeAtIp hat]
  simp [State.rawAddr, State.codeByte_of_codeAtIp hat hbase, hg, hword, State.ea]

/-- Items 6 to 8 of R148, read off the raw bytes, are the fault of the instruction that stands there. -/
theorem operandFault_eq_instrFault : s.operandFault m.toNat = s.instrFault i := by
  have hfields := firstShortField_of_codeAtIp hat hm
  rw [firstShortField] at hfields
  rw [State.operandFault, hfields]
  dsimp only
  rw [findSome?_modeRegs hat hm, State.instrFault]
  cases hb : badRegByte i with
  | some b => rfl
  | none =>
    cases ha : s.accessAddr i with
    | some a =>
      obtain ⟨src, -, hsrc, -⟩ := State.accessAddr_eq_some.1 ha
      have h4 : 4 ≤ m.toNat := (four_le_mode_iff hm).2 (by rw [hsrc]; rfl)
      simp [rawAddr_of_accessAddr hat hm ha, h4]
    | none =>
      have h4 : ¬4 ≤ m.toNat := by
        rw [four_le_mode_iff hm, Option.isSome_iff_exists]
        rintro ⟨src, hsrc⟩
        obtain ⟨g, hg⟩ := exists_base_of_wf (wf_of_badRegByte_eq_none hb) hsrc
        cases ha.symm.trans (State.accessAddr_eq_some.2 ⟨src, g, hsrc, hg, rfl⟩)
      simp [h4]

end RawBytes

/-! ### The first fault of a step (R148) -/

section FirstFault

variable {s : State} (hb : s.budgetFault = none)
include hb

theorem firstFault_of_no_opcode (h : s.codeByte 0 = none) :
    s.firstFault = some (.codeBufferOverrun s.x.ip.toInt) := by
  simp [State.firstFault, hb, h]

theorem firstFault_of_nop (h : s.codeByte 0 = some 0x00#8) : s.firstFault = none := by
  simp [State.firstFault, hb, h]

theorem firstFault_of_unknownOpcode {op : Byte} (h : s.codeByte 0 = some op) (hop : 2 ≤ op.toNat) :
    s.firstFault = some (.unknownOpcode op) := by
  have h0 : op.toNat ≠ 0 := by omega
  have h1 : op.toNat ≠ 1 := by omega
  simp [State.firstFault, hb, h, h0, h1]

theorem firstFault_of_no_mode (h : s.codeByte 0 = some 0x01#8) (hm : s.codeByte 1 = none) :
    s.firstFault = some (.codeBufferOverrun (s.x.ip.toInt + 1)) := by
  simp [State.firstFault, hb, h, hm]

theorem firstFault_of_unknownMode {m : Byte} (h : s.codeByte 0 = some 0x01#8)
    (h1 : s.codeByte 1 = some m) (hm : m.toNat = 0 ∨ 10 ≤ m.toNat) :
    s.firstFault = some (.unknownMode m) := by
  simp [State.firstFault, hb, h, h1, hm]

theorem firstFault_of_mode {m : Byte} {fm : Form} (h : s.codeByte 0 = some 0x01#8)
    (h1 : s.codeByte 1 = some m) (hm : lookupMode m = some fm) :
    s.firstFault = s.operandFault m.toNat := by
  have hknown : ¬(m.toNat = 0 ∨ 10 ≤ m.toNat) := by
    rw [← lookupMode_eq_none_iff, hm]
    exact Option.some_ne_none fm
  simp [State.firstFault, hb, h, h1, hknown]

/-- Where the bytes at `IP` are no instruction, the first fault is the decoder's. -/
theorem firstFault_of_decodeFails {e : DecodeFault} (h : DecodeFails s.code s.x.ip.toInt e) :
    s.firstFault = some (recordOf e) := by
  cases h with
  | noOpcode h => exact firstFault_of_no_opcode hb (State.codeByte_eq_none (by omega))
  | unknownOpcode hat hop =>
    exact firstFault_of_unknownOpcode hb (State.codeByte_of_codeAtIp hat rfl) hop
  | noMode hat h =>
    exact firstFault_of_no_mode hb (State.codeByte_of_codeAtIp hat rfl)
      (State.codeByte_eq_none (.inr h))
  | unknownMode hat hm =>
    exact firstFault_of_unknownMode hb (State.codeByte_of_codeAtIp hat rfl)
      (State.codeByte_of_codeAtIp hat rfl) hm
  | shortField hat hm hp hle =>
    rw [firstShortField] at hp
    rw [firstFault_of_mode hb (State.codeByte_of_codeAtIp hat rfl)
      (State.codeByte_of_codeAtIp hat rfl) hm, State.operandFault, hp, recordOf]

/-- Where the bytes at `IP` are a MOV, the opcode byte is not NOP's and the first fault is the instruction's. -/
theorem firstFault_of_mov {i : Instr} (hat : s.CodeAtIp (encode i)) (hnop : i ≠ .nop) :
    s.codeByte 0 = some 0x01#8 ∧ s.firstFault = s.instrFault i := by
  have hheader : s.CodeAtIp i.form.header := codeAt_left hat
  rcases i.form.header_cases with hform | ⟨m, hm, hlook⟩
  · cases i with
    | nop => exact absurd rfl hnop
    | _ => cases hform
  · rw [hm] at hheader
    have hop := State.codeByte_of_codeAtIp (k := 0) hheader rfl
    refine ⟨hop, ?_⟩
    rw [firstFault_of_mode hb hop (State.codeByte_of_codeAtIp hheader rfl) hlook,
      operandFault_eq_instrFault hat hlook]

end FirstFault

/-- A running step ends in its first fault; with none it halts on opcode 0 and goes on otherwise. -/
theorem exists_step_firstFault {s : State} (hrun : s.engine = .running) :
    ∃ t, step s = .next t ∧ t.engine =
      s.firstFault.elim (if s.codeByte 0 = some 0x00#8 then .halted else .running) .faulted := by
  rcases step_cases s with ⟨he, -⟩ | ⟨-, r, hb, hs⟩ | ⟨⟨-, hb⟩, e, hd, hs⟩ |
    ⟨⟨-, hb⟩, i, cur, hd, hs⟩
  · exact absurd hrun he
  · exact ⟨_, hs, by simp [State.firstFault, hb]⟩
  · exact ⟨_, hs, by simp [firstFault_of_decodeFails hb (decodeFails_of_decodeAt_error hd)]⟩
  · have hat : s.CodeAtIp (encode i) := codeAt_of_decodeAt hd
    by_cases hnop : i = .nop
    · subst hnop
      have hop := State.codeByte_of_codeAtIp (k := 0) hat rfl
      exact ⟨_, hs, by simp [firstFault_of_nop hb hop, hop]⟩
    · obtain ⟨hop, hfault⟩ := firstFault_of_mov hb hat hnop
      obtain ⟨t, ht, he⟩ := exists_exec_instrFault (s := s.countStep) hrun hnop
      refine ⟨t, hs.trans ht, he.trans ?_⟩
      simp only [hop, hfault]
      rfl

/-! ### What a fault leaves (R149, R151) -/

/-- The decoder has no budget to report. -/
theorem recordOf_ne_stepBudgetExceeded (e : DecodeFault) (n : BitVec 64) :
    recordOf e ≠ .stepBudgetExceeded n := by cases e <;> exact nofun

/-- A step from `Running` to `Faulted` raises the record on the state it began in: the budget's, or, with the counter
advanced, one of the later stages, whose records are others (R149). -/
theorem step_raise_cases {s t : State} {r : FaultRecord} (hrun : s.engine = .running)
    (h : step s = .next t) (ht : t.engine = .faulted r) :
    (t = s.raise r ∧ s.budgetFault = some r) ∨
      (t = s.countStep.raise r ∧ ∀ n, r ≠ .stepBudgetExceeded n) := by
  rcases step_cases s with ⟨he, -⟩ | ⟨-, r', hb, hs⟩ | ⟨-, e, -, hs⟩ | ⟨-, i, cur, -, hs⟩
  · exact absurd hrun he
  · cases hs.symm.trans h
    cases ht
    exact .inl ⟨rfl, hb⟩
  · cases hs.symm.trans h
    cases ht
    exact .inr ⟨rfl, recordOf_ne_stepBudgetExceeded e⟩
  · obtain ⟨rfl, ⟨k, b, -, -, rfl⟩ | ⟨m, rb, -, -, -, rfl⟩⟩ :=
      exec_raise_cases (s := s.countStep) hrun (hs.symm.trans h) ht
    · exact .inr ⟨rfl, nofun⟩
    · exact .inr ⟨rfl, nofun⟩

/-- The run up to the step that faults (R151). -/
theorem exists_faulting_step {n : Nat} {s t : State} {r : FaultRecord} (hrun : s.engine = .running)
    (h : runSteps n s = .next t) (ht : t.engine = .faulted r) :
    ∃ m u, m < n ∧ runSteps m s = .next u ∧ u.engine = .running ∧ step u = .next t := by
  induction n generalizing s with
  | zero =>
    cases h
    cases hrun.symm.trans ht
  | succ n ih =>
    obtain ⟨v, hv⟩ := exists_step_eq_next s
    rw [runSteps_succ hv] at h
    by_cases hvrun : v.engine = .running
    · obtain ⟨m, u, hm, hu, hrest⟩ := ih hvrun h
      exact ⟨m + 1, u, Nat.succ_lt_succ hm, (runSteps_succ hv m).trans hu, hrest⟩
    · obtain rfl := Host.Outcome.next.inj ((runSteps_of_not_running hvrun n).symm.trans h)
      exact ⟨0, s, n.succ_pos, rfl, hrun, hv⟩

/-- A host move taken at rest, other than an execution request, leaves the state or destroys it (R130). -/
theorem hostMove_atRest_cases {s : State} {a : HostAction} {l' : Lifecycle}
    {ans : Option HostAnswer} (h : hostMove (.atRest s) a = .ok (l', ans)) :
    a = .execute ∨ (a = .destroy ∧ l' = .noInstance) ∨ l' = .atRest s := by
  cases a with
  | construct p => cases h
  | execute => exact .inl rfl
  | destroy =>
    cases h
    exact .inr (.inl ⟨rfl, rfl⟩)
  | readStatus | readRegister =>
    cases h
    exact .inr (.inr rfl)

end Machine

/-! ### The obligations -/

/-- Settles O41: every fault a step raises is legal, and every other effect stays inside the buffer. -/
theorem stepKeepsInvariant : Obligations.StepKeepsInvariant := fun _ _ hs h => hs.of_step h

/-- Settles O37: a decode fault is the first fault of the raw bytes, and the bytes of a decoded instruction give
the instruction's own. -/
theorem stepReportsTheFirstFault : Obligations.StepReportsTheFirstFault := by
  intro s hrun
  obtain ⟨t, ht, he⟩ := exists_step_firstFault hrun
  refine ⟨t, ht, he.trans ?_⟩
  cases s.firstFault <;> rfl

/-- Settles O15, by the outcomes of the instruction. -/
theorem instructionsFaultOnlyOnTheirOperands :
    Obligations.InstructionsFaultOnlyOnTheirOperands := by
  intro i s t r hrun h ht
  obtain ⟨-, ⟨k, b, hb, hb8, rfl⟩ | ⟨m, rb, hm, hrb, hout, rfl⟩⟩ := exec_raise_cases hrun h ht
  · exact .inl ⟨k, b, hb, hb8, rfl⟩
  · exact .inr ⟨m, rb, hm, (Reg.ofByte_eq_some m.base rb).1 hrb, hout, rfl⟩

/-- Settles O33: `Faulted` is terminal, and the one move that would start an execution is refused. -/
theorem noReturnFromAFault : Obligations.NoReturnFromAFault := by
  intro s r hr
  refine ⟨runSteps_of_not_running (by simp [hr]), by simp [requestExecution, hr],
    fun a l' ans h => ?_⟩
  rcases hostMove_atRest_cases h with rfl | hdestroy | hrest
  · cases (hostMove_execute_of_faulted hr).symm.trans h
  · exact .inr hdestroy
  · exact .inl hrest

/-- Settles O34: only the budget check raises this record, and it comes before the fetch. -/
theorem budgetSpentFaultsBeforeFetch : Obligations.BudgetSpentFaultsBeforeFetch := by
  refine ⟨fun s n hrun hn hle =>
    step_of_budgetFault hrun (by simp [State.budgetFault, hn, hle]), fun s t n hrun h ht => ?_⟩
  rcases step_raise_cases hrun h ht with ⟨-, hb⟩ | ⟨-, hne⟩
  · obtain ⟨n', hn, hle, heq⟩ := State.budgetFault_eq_some hb
    cases heq
    exact ⟨hn, hle⟩
  · exact absurd rfl (hne n)

/-- Settles O38: the run up to the faulting step, and what the raise of its record leaves. -/
theorem faultsArePrecise : Obligations.FaultsArePrecise := by
  intro n s t r hrun h ht
  obtain ⟨m, u, hm, hu, hurun, hut⟩ := exists_faulting_step hrun h ht
  refine ⟨m, u, hm, hu, hurun, hut, ?_⟩
  rcases step_raise_cases hurun hut ht with ⟨rfl, -⟩ | ⟨rfl, -⟩ <;>
    exact ⟨rfl, rfl, rfl, rfl, rfl⟩

/-- Settles O49: `raise` by its definition, the kind, the code and the `info` of each record by theirs. -/
theorem raiseSetsOnlyTheRecord : Obligations.RaiseSetsOnlyTheRecord :=
  ⟨fun _ _ => ⟨rfl, rfl⟩, fun _ => rfl, fun _ => rfl, fun _ => rfl, fun _ => rfl, fun _ => rfl,
    fun _ => rfl, fun _ => rfl, fun _ => rfl, fun _ => rfl, fun _ => rfl, fun _ => rfl,
    fun _ => rfl, rfl⟩

end Sys2Proof
end

section
/-!
PROOFS. Reset (spec/70_reset_and_hazards.md): what each outcome of construction depends on, the state it leaves, and
what an execution request resets and keeps.
-/

namespace Sys2Proof

open Machine

namespace Machine

/-! ### Construction (R171, R172) -/

/-- The state that construction leaves where its checks pass (R172): the reset state with the host's memory and
configuration, and the code of the image. -/
def Params.initialState (p : Params) : State :=
  { State.reset with
    mem := p.memInit
    code := p.image.drop 4
    cfg :=
      { memSize := p.memSize
        stackSize := p.stackSize
        dataSize := le32 (p.image.take 4)
        maxSteps := p.maxSteps } }

theorem construct_of_short {p : Params} (h : p.image.length < 4) :
    construct p = .error .headerTruncated := if_pos h

theorem construct_of_overfull {p : Params} (hlen : 4 ≤ p.image.length)
    (h : (le32 (p.image.take 4)).toNat + p.stackSize > p.memSize) :
    construct p = .error .layoutInvariant :=
  (if_neg (Nat.not_lt.2 hlen)).trans (if_pos h)

theorem construct_of_fits {p : Params} (hlen : 4 ≤ p.image.length)
    (h : (le32 (p.image.take 4)).toNat + p.stackSize ≤ p.memSize) :
    construct p = .ok p.initialState :=
  (if_neg (Nat.not_lt.2 hlen)).trans (if_neg (Nat.not_lt.2 h))

/-- Construction succeeds exactly where both checks pass, and then in the one initial state. -/
theorem construct_eq_ok_iff {p : Params} {s : State} :
    construct p = .ok s ↔ 4 ≤ p.image.length ∧
      (le32 (p.image.take 4)).toNat + p.stackSize ≤ p.memSize ∧ s = p.initialState := by
  constructor
  · intro h
    rcases Nat.lt_or_ge p.image.length 4 with hshort | hlen
    · cases (construct_of_short hshort).symm.trans h
    · rcases Nat.lt_or_ge p.memSize ((le32 (p.image.take 4)).toNat + p.stackSize) with hover | hfit
      · cases (construct_of_overfull hlen hover).symm.trans h
      · exact ⟨hlen, hfit, Except.ok.inj (h.symm.trans (construct_of_fits hlen hfit))⟩
  · rintro ⟨hlen, hfit, rfl⟩
    exact construct_of_fits hlen hfit

@[simp] theorem Params.getReg_initialState (p : Params) (k : RegKind) (r : Reg) :
    p.initialState.getReg k r = 0 := State.getReg_reset k r

theorem Params.wf_iff {p : Params} : p.wf = true ↔
    p.memSize ≤ Config.maxSize ∧ p.image.length ≤ Config.maxSize + 4 ∧
      Mem.wf p.memInit = true ∧ Mem.below p.memInit p.memSize = true := by
  simp [Params.wf, and_assoc]

/-- Parameters in range that pass the layout check give a state that meets the invariant (R5,
R31). -/
theorem Params.inv_initialState {p : Params} (hwf : p.wf = true)
    (hfit : (le32 (p.image.take 4)).toNat + p.stackSize ≤ p.memSize) : p.initialState.Inv := by
  obtain ⟨hsize, hlen, hmem, hbelow⟩ := Params.wf_iff.1 hwf
  exact {
    memWf := hmem
    memBelow := hbelow
    memSize := hsize
    codeLen := List.length_drop.trans_le (Nat.sub_le_of_le_add hlen)
    layout := hfit
    budget := fun n _ => Nat.zero_le n.toNat
    record := fun _ hr => by cases hr }

/-! ### The execution request (R173, R174) -/

@[simp] theorem State.getReg_requestReset (s : State) (k : RegKind) (r : Reg) :
    s.requestReset.getReg k r = 0 := by
  cases k <;> exact RegFile.get_zero r

theorem requestExecution_of_not_faulted {s : State} (h : ∀ r, s.engine ≠ .faulted r) :
    requestExecution (.atRest s) = .ok (.executing s.requestReset) := by
  cases he : s.engine with
  | running | halted => simp only [requestExecution, he]
  | faulted r => exact absurd he (h r)

theorem requestExecution_of_faulted {s : State} {r : FaultRecord} (h : s.engine = .faulted r) :
    requestExecution (.atRest s) = .error .instanceFaulted := by
  simp only [requestExecution, h]

end Machine

/-! ### The obligations -/

/-- Settles O46: a construction that succeeds leaves the one initial state. -/
theorem constructionLeavesTheResetState : Obligations.ConstructionLeavesTheResetState := by
  intro p s h
  obtain ⟨-, hfit, rfl⟩ := construct_eq_ok_iff.1 h
  exact ⟨rfl, rfl, p.getReg_initialState, rfl, rfl, rfl, rfl,
    fun hwf => p.inv_initialState hwf hfit⟩

/-- Settles O44: the image passes both checks, and its initial state is the reset state. -/
theorem resetIsConstructionOfTheEmptyStream : Obligations.ResetIsConstructionOfTheEmptyStream :=
  ⟨construct_of_fits (by decide) (by decide), rfl⟩

/-- Settles O45, by the three outcomes of construction. -/
theorem constructionChecksInOrder : Obligations.ConstructionChecksInOrder := fun _ =>
  ⟨construct_of_short, construct_of_overfull, fun hlen hfit => ⟨_, construct_of_fits hlen hfit⟩⟩

/-- Settles O47: an accepted request starts from the request's reset. -/
theorem executionRequestResetsRegisters : Obligations.ExecutionRequestResetsRegisters := fun s =>
  ⟨fun h => ⟨s.requestReset, requestExecution_of_not_faulted h, s.getReg_requestReset, rfl, rfl,
    rfl, rfl, rfl⟩, fun _ => requestExecution_of_faulted⟩

end Sys2Proof
end
